-- ==== Sys2Proof/Word.lean ====
section
/-! DEFINITION. The word types of the DCC codec core (spec/00_scope.md R5, R7, R9). -/

namespace Sys2Proof

/-- One byte of the data memory, the core's only data unit (20_memory.md R64). -/
abbrev Byte := BitVec 8

/-- A register or a command word: REG_BITS = 32 (00_scope.md R5). -/
abbrev Word := BitVec 32

/-- A byte address of the data memory or of the host's bus: ADDR_BITS = 32 (00_scope.md R5). -/
abbrev Addr := BitVec 32

/-- A bit string: `true` is "1", the first element is the bit nearest the root (00_scope.md R9). -/
abbrev Bits := List Bool

end Sys2Proof
end

