-- ==== Sys2Proof/Syntax.lean ====
section
/-! DEFINITION. The commands of the core, one constructor per row of spec/opcode_table.json (30_encoding.md R91). A
command word has no operand field (R90), so no constructor has an argument. -/

namespace Sys2Proof

/-- The commands of 30_encoding.md R91. -/
inductive Instr where
  /-- NOP, 40_control.md R125 -/
  | nop
  /-- HUF_ENC, 42_huffman_codec.md R180 -/
  | hufEnc
  /-- HUF_DEC, 42_huffman_codec.md R190 -/
  | hufDec
  /-- LZ_ENC, 44_lz77_tuple.md R240 -/
  | lzEnc
  /-- LZ_DEC, 44_lz77_tuple.md R243 -/
  | lzDec
  /-- HUF_CODES, 41_huffman_tree.md R157 -/
  | hufCodes
  deriving DecidableEq, Repr

end Sys2Proof
end

