-- ==== Sys2Proof/Decode.lean ====
section
/-! DEFINITION. Decoding and encoding of command words (spec/30_encoding.md R90, R91, R99, R103). -/

namespace Sys2Proof

/-- Why a command word is illegal (30_encoding.md R99). -/
inductive DecodeReject where
  /-- bits 31:8 are not all zero -/
  | reservedBits
  /-- OPCODE is in 0x06 to 0xFF -/
  | reservedOpcode
  deriving DecidableEq, Repr

/-- OPCODE, bits 7:0 of a command word (30_encoding.md R90). -/
abbrev opcodeField (w : Word) : BitVec 8 := w.extractLsb' 0 8

/-- RSVD, bits 31:8 of a command word (30_encoding.md R90). -/
abbrev rsvdField (w : Word) : BitVec 24 := w.extractLsb' 8 24

/-- The opcode map (30_encoding.md R91). -/
def instrOfOpcode (op : BitVec 8) : Option Instr :=
  match op.toNat with
  | 0x00 => some .nop
  | 0x01 => some .hufEnc
  | 0x02 => some .hufDec
  | 0x03 => some .lzEnc
  | 0x04 => some .lzDec
  | 0x05 => some .hufCodes
  | _ => none

/-- Decodes a command word: legal if and only if RSVD = 0 and OPCODE is assigned (30_encoding.md R90). -/
def decode (w : Word) : Except DecodeReject Instr :=
  if rsvdField w = 0 then
    match instrOfOpcode (opcodeField w) with
    | some i => .ok i
    | none => .error .reservedOpcode
  else .error .reservedBits

/-- The opcode of a command (30_encoding.md R91). -/
def Instr.opcode : Instr → BitVec 8
  | .nop => 0x00
  | .hufEnc => 0x01
  | .hufDec => 0x02
  | .lzEnc => 0x03
  | .lzDec => 0x04
  | .hufCodes => 0x05

/-- The command word of a command: its opcode zero-extended to 32 bits (30_encoding.md R91). -/
def encode (i : Instr) : Word := i.opcode.setWidth 32

/-- The instruction that a word of spec/opcode_table.json decodes to: a command word has exactly 32 bits (30_encoding.md
R103), so a word with a bit above 31 is none. -/
def decodeTableWord (nbits w : Nat) : Option Instr :=
  if w % 2 ^ nbits < 2 ^ 32 then (decode (BitVec.ofNat 32 (w % 2 ^ nbits))).toOption else none

/-- A data command is opcode 0x01 to 0x05 (40_control.md R126). -/
def Instr.isData (i : Instr) : Bool := i != .nop

end Sys2Proof
end

