-- ==== Sys2Proof/Config.lean ====
section
/-! DEFINITION. The fixed parameters (spec/00_scope.md R5), the hardwired identity (R1, R22) and the free values the
spec leaves open (93_implementation_defined.md S1 to S3). The open parameters REG_BASE and BUS_ERR (R6) are plain data
in `Machine.Platform`. -/

namespace Sys2Proof.Config

/-- The identification string of 00_scope.md R1. No register reads it. -/
def idString : String := "DCC-v7 HUF+LZ77"

/-- The hardwired value of the ID register (10_state.md R22). -/
def idValue : Word := 0x44430007

/-- The number of byte addresses of the data memory, 2^32 (10_state.md R45, 20_memory.md R69). -/
abbrev addrSpace : Nat := 4294967296

/-- ALPHABET (00_scope.md R5). -/
abbrev alphabet : Nat := 256

/-- WINDOW: the largest LZ77 back-distance (00_scope.md R5). -/
abbrev window : Nat := 255

/-- MAX_MATCH: the largest LZ77 match length (00_scope.md R5). -/
abbrev maxMatch : Nat := 255

/-- The bytes of one code record of the HUF_CODES dump, without its length byte (30_encoding.md R95). -/
abbrev codeBytes : Nat := 32

/-- CODES_DUMP_LEN (00_scope.md R5). -/
abbrev codesDumpLen : Nat := 8448

/-- What a byte of the data memory that nothing has written reads as.
DESIGN CHOICE, unsafe (notes/assumptions/5.md): the spec gives the data memory no power-on contents. -/
def powerOnByte : Byte := 0x00

/-- FREE VALUE: the `n`-th byte draw ("any value", 93_implementation_defined.md S1 to S3; notes/assumptions/6.md). -/
opaque freeByte : Nat → Byte

/-- FREE VALUE: the `n`-th word draw, what a bus read that the core does not answer returns (notes/assumptions/12.md). -/
opaque freeWord : Nat → Word

end Sys2Proof.Config
end

