-- ==== Sys2Proof/Machine/HostSyntax.lean ====
section
/-! DEFINITION. What the host agent can do: the registers by name (spec/10_state.md R21), the host-program notation of
30_encoding.md R101 and R102, and the bus transactions and branches the notation is assembled into. -/

namespace Sys2Proof.Machine

/-- The named registers of the register window (10_state.md R21). -/
inductive Reg where
  | id | cmd | status | srcAddr | srcLen | dstAddr | dstCap | dstLen | intEn | intStat
  deriving DecidableEq, Repr

/-- A label of a host program: one the writer chose, or the fresh label of one WAIT (30_encoding.md R102). -/
inductive Label where
  | user (n : Nat)
  | fresh (n : Nat)
  deriving DecidableEq, Repr

/-- The name an RD statement gives the value it reads; names are numbers here (notes/assumptions/14.md). -/
abbrev VarName := Nat

/-- The primitive statements of a host program (30_encoding.md R101). -/
inductive HostStmt where
  /-- `WR <reg>, <imm32>` -/
  | wr (reg : Reg) (imm : Word)
  /-- `RD <reg> -> <name>` -/
  | rd (reg : Reg) (name : VarName)
  /-- `MEM <addr>: <hex bytes>` -/
  | mem (addr : Addr) (bytes : List Byte)
  /-- `<label>:` -/
  | label (l : Label)
  /-- `BNZ <name>[<bit>], <label>` -/
  | bnz (name : VarName) (bit : Nat) (l : Label)
  deriving DecidableEq, Repr

/-- A line of a host program: a primitive statement or a pseudo-statement of 30_encoding.md R102. -/
inductive HostLine where
  | stmt (s : HostStmt)
  /-- `CMD <mnemonic>` -/
  | cmd (i : Instr)
  /-- `WAIT` -/
  | wait
  /-- `ACK` -/
  | ack
  /-- `RUN <mnemonic> sa, sl, da, dc` -/
  | run (i : Instr) (sa sl da dc : Word)
  deriving DecidableEq, Repr

/-- One move of the host agent: a bus transaction, an access to the data memory, or host-side control. Every register
statement is one 32-bit transaction (30_encoding.md R103); `bytes` lets a host make the accesses of other widths too
(10_state.md R33). -/
inductive HostOp where
  /-- a bus write of `bytes` bytes at bus address `addr` -/
  | busWrite (addr : Addr) (bytes : Nat) (data : Word)
  /-- a bus read of `bytes` bytes at bus address `addr`, the answer kept under `name` -/
  | busRead (addr : Addr) (bytes : Nat) (name : VarName)
  /-- the host writes one byte of the data memory by its own means (10_state.md R45) -/
  | memWrite (addr : Addr) (v : Byte)
  /-- the host reads one byte of the data memory -/
  | memRead (addr : Addr) (name : VarName)
  /-- host-side control: go to `target` if the bit is 1 -/
  | branch (name : VarName) (bit : Nat) (target : Nat)
  deriving DecidableEq, Repr

end Sys2Proof.Machine
end

