-- ==== Sys2Proof/Machine/State.lean ====
section
/-! DEFINITION. The machine's state: the registers of spec/10_state.md R21 to R34, the engine state of R35, the data
memory of R45, and the model's own fields for the open parameters (00_scope.md R6), the draws, the host agent (R14)
and the order of the agents' moves. Reset values: R44. -/

namespace Sys2Proof.Machine

/-- The engine state (10_state.md R35). The host sees `busy` as STATUS.BUSY. -/
inductive Engine where
  | idle
  | busy
  deriving DecidableEq, Repr

/-- The error codes of 60_exceptions.md R271, without OK. No reserved value has a constructor. -/
inductive ErrCode where
  | illegalCmd | range | overlap | busRead | busWrite | dstOverflow
  | hufTruncated | hufUsableBits | hufTable | hufCorrupt | hufLength
  | lzDistance
  deriving DecidableEq, Repr

/-- The fields of STATUS other than BUSY (10_state.md R24). `errCode = none` is ERRCODE 0x00. -/
structure Status where
  done    : Bool
  err     : Bool
  tail    : Bool
  cmdLost : Bool
  errCode : Option ErrCode
  deriving DecidableEq, Repr

/-- The kind of an engine byte access (00_scope.md R6, BUS_ERR). -/
inductive AccessKind where
  | read
  | write
  deriving DecidableEq, Repr

/-- Addresses whose engine accesses of one kind the platform answers with an error. -/
structure BusErrRegion where
  kind : AccessKind
  base : Nat
  len  : Nat
  deriving DecidableEq, Repr

/-- The open parameters of 00_scope.md R6 as plain data: REG_BASE is 256-byte aligned, so its high 24 bits say it
whole; BUS_ERR is a predicate on a finite space, so a list of regions says it whole. No step changes them. -/
structure Platform where
  regBasePage : BitVec 24
  busErr      : List BusErrRegion
  deriving DecidableEq, Repr

/-- The data memory: (address, byte) pairs, addresses strictly rising, no byte equal to `Config.powerOnByte`. -/
abbrev Memory := List Host.Cell

/-- The canonical form of the data memory. -/
abbrev Memory.wf (m : Memory) : Prop :=
  List.Pairwise (fun x y => x.1 < y.1) m ∧ ∀ c ∈ m, c.2 ≠ Config.powerOnByte ∧ c.1 < Config.addrSpace

/-- The host agent: its program, the index of its next move, and the values its reads named. -/
structure HostAgent where
  prog : List HostOp
  pc   : Nat
  vars : List (VarName × Word)
  deriving DecidableEq, Repr

/-- Who makes the next move. -/
inductive Turn where
  /-- the engine (40_control.md R120) -/
  | engine
  /-- the host (00_scope.md R14) -/
  | host
  /-- the reset input is asserted and released (70_reset_and_hazards.md R300) -/
  | reset
  deriving DecidableEq, Repr

/-- Why the machine stops. -/
inductive Fault where
  /-- Raised by a host write to a byte of the source window while a data command runs: 70_reset_and_hazards.md R305
  says fault. Safe: no claim holds of such a run. -/
  | hostWroteSourceWindow
  /-- Raised by a host write to a byte of the destination window while a data command runs: R305 says fault. Safe. -/
  | hostWroteDestinationWindow
  deriving DecidableEq, Repr

/-- Why a step has no meaning. -/
inductive Refusal where
  /-- Raised by an arm of `exec` whose instruction has no meaning yet. No arm does. Safe. -/
  | notModelled (mnemonic : String)
  deriving DecidableEq, Repr

structure State where
  /-- CMD (10_state.md R23) -/
  cmd      : Word
  /-- the engine state, STATUS.BUSY (R35, R24) -/
  eng      : Engine
  /-- the other fields of STATUS (R24) -/
  status   : Status
  /-- SRC_ADDR (R25) -/
  srcAddr  : Word
  /-- SRC_LEN (R26) -/
  srcLen   : Word
  /-- DST_ADDR (R27) -/
  dstAddr  : Word
  /-- DST_CAP (R28) -/
  dstCap   : Word
  /-- DST_LEN (R29) -/
  dstLen   : Word
  /-- INT_EN.CIE (R30) -/
  cie      : Bool
  /-- INT_STAT.CIP (R31) -/
  cip      : Bool
  /-- the data memory (R45) -/
  mem      : Memory
  /-- how many free values have been used (the model's own, notes/assumptions/6.md) -/
  draws    : Nat
  /-- the open parameters (the model's own, 00_scope.md R6) -/
  platform : Platform
  /-- the host agent (00_scope.md R14, 30_encoding.md R101) -/
  host     : HostAgent
  /-- who moves next, first first; when it is empty a busy engine moves, else the host (notes/assumptions/1.md) -/
  turns    : List Turn
  deriving DecidableEq, Repr

/-- STATUS after reset (10_state.md R24, R44). -/
def Status.reset : Status := { done := false, err := false, tail := false, cmdLost := false, errCode := none }

/-- The machine right after reset (10_state.md R44, 70_reset_and_hazards.md R300). The fields that are the model's own
are empty (DESIGN CHOICE, notes/assumptions/1.md to 6.md and 14.md). -/
def State.reset : State where
  cmd := 0
  eng := .idle
  status := Status.reset
  srcAddr := 0
  srcLen := 0
  dstAddr := 0
  dstCap := 0
  dstLen := 0
  cie := false
  cip := false
  mem := []
  draws := 0
  platform := { regBasePage := 0, busErr := [] }
  host := { prog := [], pc := 0, vars := [] }
  turns := []

end Sys2Proof.Machine
end

