-- ==== Sys2Proof/Machine/Flags.lean ====
section
/-! DEFINITION. The status flags (spec/10_state.md R24, R36), the error codes (60_exceptions.md R271) and the interrupt
line (10_state.md R43). -/

namespace Sys2Proof.Machine

/-- The numeric error codes (60_exceptions.md R271). -/
def ErrCode.toByte : ErrCode → BitVec 8
  | .illegalCmd => 0x01
  | .range => 0x02
  | .overlap => 0x03
  | .busRead => 0x04
  | .busWrite => 0x05
  | .dstOverflow => 0x06
  | .hufTruncated => 0x10
  | .hufUsableBits => 0x11
  | .hufTable => 0x12
  | .hufCorrupt => 0x13
  | .hufLength => 0x14
  | .lzDistance => 0x20

/-- STATUS.ERRCODE: 0x00 on success (60_exceptions.md R271). -/
def errCodeByte : Option ErrCode → BitVec 8
  | none => 0x00
  | some c => c.toByte

/-- The errors raised before any memory access: they leave the destination window intact (40_control.md R127). -/
def ErrCode.beforeMemory : ErrCode → Bool
  | .illegalCmd | .range | .overlap => true
  | .busRead | .busWrite | .dstOverflow | .hufTruncated | .hufUsableBits | .hufTable | .hufCorrupt | .hufLength
  | .lzDistance => false

/-- STATUS.BUSY (10_state.md R24, R35). -/
def Engine.busyBit : Engine → Bool
  | .idle => false
  | .busy => true

/-- STATUS as the host reads it (10_state.md R24): ERRCODE in 15:8, CMD_LOST 4, TAIL 3, ERR 2, DONE 1, BUSY 0, every
other bit 0. -/
def statusWord (s : State) : Word :=
  (0 : BitVec 16) ++ errCodeByte s.status.errCode ++ (0 : BitVec 3) ++ BitVec.ofBool s.status.cmdLost ++
    BitVec.ofBool s.status.tail ++ BitVec.ofBool s.status.err ++ BitVec.ofBool s.status.done ++
    BitVec.ofBool s.eng.busyBit

/-- What acceptance does to the flags of STATUS other than BUSY: it clears them all (40_control.md R121). -/
def Status.accepted (_ : Status) : Status := Status.reset

/-- What a lost command does to STATUS (40_control.md R122). -/
def Status.lost (st : Status) : Status := { st with cmdLost := true }

/-- What a successful completion does to STATUS; CMD_LOST keeps its value (40_control.md R120). -/
def Status.completedOk (st : Status) (tail : Bool) : Status :=
  { st with done := true, err := false, tail := tail, errCode := none }

/-- What a completion with an error does to STATUS; CMD_LOST keeps its value (40_control.md R120). -/
def Status.completedErr (st : Status) (code : ErrCode) : Status :=
  { st with done := true, err := true, tail := false, errCode := some code }

/-- The interrupt line (10_state.md R43). -/
def irq (s : State) : Bool := s.cie && s.cip

end Sys2Proof.Machine
end

