-- ==== Sys2Proof/Machine/Operands.lean ====
section
/-! DEFINITION. The operands of a command (spec/30_encoding.md R92), its windows (00_scope.md R13), the region checks
(40_control.md R124) and the platform's answer to an engine access (00_scope.md R6). -/

namespace Sys2Proof.Machine

/-- The four operands, each an unsigned number below 2^32 (30_encoding.md R92). -/
structure Operands where
  sa : Nat
  sl : Nat
  da : Nat
  dc : Nat
  deriving DecidableEq, Repr

/-- Every data command reads the same four registers (30_encoding.md R92). -/
def State.operands (s : State) : Operands :=
  { sa := s.srcAddr.toNat, sl := s.srcLen.toNat, da := s.dstAddr.toNat, dc := s.dstCap.toNat }

/-- RegionCheck (40_control.md R124): exact sums, RANGE before OVERLAP, an empty window overlaps nothing. -/
def regionCheck (o : Operands) : Except ErrCode Unit :=
  if o.sa + o.sl > Config.addrSpace ∨ o.da + o.dc > Config.addrSpace then .error .range
  else if o.sl > 0 ∧ o.dc > 0 ∧ o.sa < o.da + o.dc ∧ o.da < o.sa + o.sl then .error .overlap
  else .ok ()

/-- The address `a` lies in the window of `len` bytes at `base` (00_scope.md R13). -/
def inWindow (base len : Word) (a : Addr) : Bool :=
  decide (base.toNat ≤ a.toNat) && decide (a.toNat < base.toNat + len.toNat)

/-- The source window (00_scope.md R13). -/
def State.inSource (s : State) (a : Addr) : Bool := inWindow s.srcAddr s.srcLen a

/-- The destination window (00_scope.md R13). -/
def State.inDestination (s : State) (a : Addr) : Bool := inWindow s.dstAddr s.dstCap a

/-- How many addresses below 2^32 the destination window has: all DST_CAP of them when it is in range. -/
def State.destinationSize (s : State) : Nat :=
  min s.dstCap.toNat (Config.addrSpace - s.dstAddr.toNat)

/-- BUS_ERR: the platform answers this engine access with an error (00_scope.md R6). -/
def Platform.errs (p : Platform) (kind : AccessKind) (a : Addr) : Bool :=
  p.busErr.any fun r => r.kind == kind && decide (r.base ≤ a.toNat) && decide (a.toNat < r.base + r.len)

/-- REG_BASE (00_scope.md R6). -/
def Platform.regBase (p : Platform) : Addr := p.regBasePage ++ (0 : BitVec 8)

end Sys2Proof.Machine
end

