-- ==== Sys2Proof/Machine/Ops.lean ====
section
/-! DEFINITION. The shared operations: byte order (spec/00_scope.md R8), the data memory, the engine's accesses
(R10, 20_memory.md R64), acceptance and completion of a command (40_control.md R120 to R122, R126), and reset
(70_reset_and_hazards.md R300, R301). -/

namespace Sys2Proof.Machine

/-- The natural-number quotient rounded up (00_scope.md R7). -/
def ceilDiv (a b : Nat) : Nat := (a + b - 1) / b

/-- The little-endian form of a 32-bit value (00_scope.md R8). -/
def le32 (v : Nat) : List Byte :=
  [BitVec.ofNat 8 v, BitVec.ofNat 8 (v / 256), BitVec.ofNat 8 (v / 65536), BitVec.ofNat 8 (v / 16777216)]

/-- The value of four little-endian bytes (00_scope.md R8, `rdle32`). -/
def rdle32 (b0 b1 b2 b3 : Byte) : Nat :=
  b0.toNat + 256 * b1.toNat + 65536 * b2.toNat + 16777216 * b3.toNat

/-! ### The data memory -/

/-- One byte of the data memory. -/
def Memory.read : Memory → Addr → Byte
  | [], _ => Config.powerOnByte
  | (k, v) :: m, a => if k = a.toNat then v else Memory.read m a

/-- The memory with one byte written, in canonical form. -/
def Memory.write : Memory → Addr → Byte → Memory
  | [], a, v => if v = Config.powerOnByte then [] else [(a.toNat, v)]
  | (k, w) :: m, a, v =>
    if k < a.toNat then (k, w) :: Memory.write m a v
    else
      let rest := if k = a.toNat then m else (k, w) :: m
      if v = Config.powerOnByte then rest else (a.toNat, v) :: rest

/-- Consecutive bytes written upward from `a`. -/
def Memory.writeBytes : Memory → Addr → List Byte → Memory
  | m, _, [] => m
  | m, a, b :: bs => Memory.writeBytes (Memory.write m a b) (a + 1) bs

/-- Consecutive bytes read upward from `a`. -/
def Memory.readBytes (m : Memory) : Addr → Nat → List Byte
  | _, 0 => []
  | a, n + 1 => m.read a :: Memory.readBytes m (a + 1) n

/-! ### Engine accesses -/

/-- MemRead(a, 1): a byte, or BusRead when BUS_ERR holds for it (00_scope.md R10). -/
def engineRead (p : Platform) (m : Memory) (a : Addr) : Except ErrCode Byte :=
  if p.errs .read a then .error .busRead else .ok (m.read a)

/-- MemWrite(a, 1, v): raises BusWrite when BUS_ERR holds for it (00_scope.md R10). -/
def engineWrite (p : Platform) (m : Memory) (a : Addr) (v : Byte) : Except ErrCode Memory :=
  if p.errs .write a then .error .busWrite else .ok (m.write a v)

/-- The snapshot of `n` source bytes from `a` upward; the lowest address that errs decides (20_memory.md R65,
60_exceptions.md R278). -/
def readSource (p : Platform) (m : Memory) : Addr → Nat → Except ErrCode (List Byte)
  | _, 0 => .ok []
  | a, n + 1 => do
    let b ← engineRead p m a
    let bs ← readSource p m (a + 1) n
    return b :: bs

/-- The output bytes written in ascending address order (40_control.md R126). -/
def writeOutput (p : Platform) : Memory → Addr → List Byte → Except ErrCode Memory
  | m, _, [] => .ok m
  | m, a, b :: bs => do
    let m' ← engineWrite p m a b
    writeOutput p m' (a + 1) bs

/-! ### Draws -/

/-- `n` free bytes, from the `k`-th on. -/
def freeBytes (k n : Nat) : List Byte := (List.range n).map fun p => Config.freeByte (k + p)

/-- Every byte of the destination window takes any value, one draw per byte (40_control.md R120, 70_reset_and_hazards.md
R301). The engine never forms an address at or above 2^32 (20_memory.md R69). -/
def State.drawDestination (s : State) : State :=
  { s with
    mem := s.mem.writeBytes s.dstAddr (freeBytes s.draws s.destinationSize)
    draws := s.draws + s.destinationSize }

/-! ### The command lifecycle -/

/-- What a command's pure function returns: the output bytes and TAIL (40_control.md R126). -/
structure Output where
  bytes : List Byte
  tail  : Bool
  deriving DecidableEq, Repr

/-- A command's result with the memory after its writes. -/
structure Performed where
  out : Output
  mem : Memory
  deriving DecidableEq, Repr

/-- Command acceptance (40_control.md R121). CIP is not changed. -/
def accept (w : Word) (s : State) : State :=
  { s with cmd := w, status := s.status.accepted, dstLen := 0, eng := .busy }

/-- A lost command: the only effect is CMD_LOST (40_control.md R122). -/
def loseCommand (s : State) : State := { s with status := s.status.lost }

/-- Perform for a data command with the pure function `f` (40_control.md R126). -/
def performData (f : List Byte → Nat → Except ErrCode Output) (s : State) : Except ErrCode Performed := do
  let o := s.operands
  regionCheck o
  let src ← readSource s.platform s.mem s.srcAddr o.sl
  let out ← f src o.dc
  let m ← writeOutput s.platform s.mem s.dstAddr out.bytes
  return { out := out, mem := m }

/-- Successful completion (40_control.md R120). -/
def completeOk (s : State) (r : Performed) : State :=
  { s with
    dstLen := BitVec.ofNat 32 r.out.bytes.length
    status := s.status.completedOk r.out.tail
    cip := true
    eng := .idle
    mem := r.mem }

/-- Completion with an error, the core's counterpart of taking an exception (40_control.md R120, 60_exceptions.md R283).
It saves STATUS and CIP only, and transfers no control. The destination window is drawn, except for the three codes of
40_control.md R127. -/
def completeErr (s : State) (code : ErrCode) : State :=
  let t := if code.beforeMemory then s else s.drawDestination
  { t with dstLen := 0, status := s.status.completedErr code, cip := true, eng := .idle }

/-- Completion (40_control.md R120). -/
def complete (s : State) (r : Except ErrCode Performed) : State :=
  match r with
  | .ok p => completeOk s p
  | .error code => completeErr s code

/-- The engine step of a data command whose pure function is `f`. -/
def runData (f : List Byte → Nat → Except ErrCode Output) (s : State) : State := complete s (performData f s)

/-- Acknowledge, the core's counterpart of a return from exception (60_exceptions.md R284): a write of 1 to INT_STAT bit 0
clears CIP, and STATUS keeps its fields. -/
def acknowledge (s : State) : State := { s with cip := false }

/-! ### Reset -/

/-- The registers and the engine at their reset values, all else kept (10_state.md R44). -/
def resetRegisters (s : State) : State :=
  { State.reset with
    mem := s.mem, draws := s.draws, platform := s.platform, host := s.host, turns := s.turns }

/-- Reset (70_reset_and_hazards.md R300). A running command is abandoned and its destination window is drawn (R301).
DESIGN CHOICE, safe (notes/assumptions/23.md): a byte in both windows of a running command is drawn too, although R301 also
says that the source window is unchanged. -/
def resetCore (s : State) : State :=
  match s.eng with
  | .idle => resetRegisters s
  | .busy => resetRegisters s.drawDestination

end Sys2Proof.Machine
end

