-- ==== Sys2Proof/Machine/Control.lean ====
section
/-! DEFINITION. The control commands (spec/40_control.md): NOP (R125) and illegal words (R123). -/

namespace Sys2Proof.Machine

/-- NOP, opcode 0x00 (40_control.md R125): `return ok([], 0)`, with no memory access and no window check. -/
def execNop (s : State) : Host.Outcome State Fault Refusal :=
  .next (completeOk s { out := { bytes := [], tail := false }, mem := s.mem })

/-- An illegal command word (40_control.md R123): `raise Err(ILLEGAL_CMD)`, with no memory access. -/
def execIllegal (s : State) : Host.Outcome State Fault Refusal := .next (completeErr s .illegalCmd)

end Sys2Proof.Machine
end

