-- ==== Sys2Proof/Machine/HuffTree.lean ====
section
/-! DEFINITION. HUF-TREE (spec/41_huffman_tree.md): frequency table, tree, codes, and HUF_CODES (R157). These values are
the core's FREQ, node arena and CODE (10_state.md R37 to R39), built afresh by each command (R42). -/

namespace Sys2Proof.Machine

/-- A Huffman tree (00_scope.md R12). An internal node carries the sym of its leftmost leaf (41_huffman_tree.md R146). -/
inductive Tree where
  | leaf (sym : Byte) (freq : Nat)
  | node (sym : Byte) (freq : Nat) (left right : Tree)
  deriving DecidableEq, Repr

/-- An entry of the frequency table (41_huffman_tree.md R141). -/
structure Entry where
  sym  : Byte
  freq : Nat
  deriving DecidableEq, Repr

/-- The code table: the symbols that have a code, with their codes (41_huffman_tree.md R150). -/
abbrev CodeTable := List (Byte × Bits)

/-- The 256 byte values, ascending. -/
def allBytes : List Byte := (List.range Config.alphabet).map (BitVec.ofNat 8)

/-- FreqCount (41_huffman_tree.md R140): how often each byte value occurs. -/
def freqCount (src : List Byte) (b : Byte) : Nat := src.count b

/-- Table (41_huffman_tree.md R141): the byte values that occur, ascending. -/
def table (freq : Byte → Nat) : List Entry :=
  (allBytes.filter fun b => decide (freq b ≥ 1)).map fun b => { sym := b, freq := freq b }

def Tree.sym : Tree → Byte
  | .leaf b _ => b
  | .node b _ _ _ => b

def Tree.freq : Tree → Nat
  | .leaf _ f => f
  | .node _ f _ _ => f

/-- `key(x) < key(y)`: frequency first, then sym (41_huffman_tree.md R143). -/
def keyLt (x y : Tree) : Bool :=
  decide (x.freq < y.freq) || (x.freq == y.freq && decide (x.sym.toNat < y.sym.toNat))

/-- The node of the set `t :: ts` with the smallest key, and the others. -/
def extractMin : Tree → List Tree → Tree × List Tree
  | t, [] => (t, [])
  | t, u :: us =>
    match extractMin u us with
    | (m, rest) => if keyLt m t then (m, t :: rest) else (t, m :: rest)

/-- The node of one merge: the first removed node is the left child and gives its sym (41_huffman_tree.md R144, R145). -/
def merge (a c : Tree) : Tree := .node a.sym (a.freq + c.freq) a c

/-- The merges of BuildTree on the set `t :: ts`, at most `fuel` of them (41_huffman_tree.md R144). -/
def mergeAll : Nat → Tree → List Tree → Tree
  | 0, t, _ => t
  | fuel + 1, t, ts =>
    match extractMin t ts with
    | (a, []) => a
    | (a, r :: rs) =>
      match extractMin r rs with
      | (c, rest) => mergeAll fuel (merge a c) rest

/-- BuildTree (41_huffman_tree.md R144): n leaves take n - 1 merges. An empty table has no tree. -/
def buildTree : List Entry → Option Tree
  | [] => none
  | e :: es =>
    some (mergeAll (es.length + 1) (.leaf e.sym e.freq) (es.map fun e' => .leaf e'.sym e'.freq))

/-- Walk (41_huffman_tree.md R150): "0" going left, "1" going right. -/
def walkCodes : Tree → Bits → CodeTable
  | .leaf b _, path => [(b, path)]
  | .node _ _ l r, path => walkCodes l (path ++ [false]) ++ walkCodes r (path ++ [true])

/-- Codes (41_huffman_tree.md R150). A root that is a leaf gives its symbol the code "0" (R151). -/
def codes : Tree → CodeTable
  | .leaf b _ => [(b, [false])]
  | .node b f l r => walkCodes (.node b f l r) []

/-- The code of a byte value, if it has one. -/
def codeOf : CodeTable → Byte → Option Bits
  | [], _ => none
  | (x, bits) :: t, b => if x = b then some bits else codeOf t b

/-- The code table of an input; the empty input has none (41_huffman_tree.md R157). -/
def codeTable (src : List Byte) : CodeTable :=
  match buildTree (table (freqCount src)) with
  | none => []
  | some root => codes root

/-- The byte whose bit `7 - k` is the `k`-th of the first eight bits, absent bits 0 (42_huffman_codec.md R184). -/
def byteOfBits (bits : Bits) : Byte :=
  BitVec.ofNat 8 ((List.range 8).foldl (fun acc k => 2 * acc + (bits.getD k false).toNat) 0)

/-- Bits packed MSB first into `n` bytes, absent bits 0 (42_huffman_codec.md R184). -/
def packInto : Nat → Bits → List Byte
  | 0, _ => []
  | n + 1, bits => byteOfBits bits :: packInto n (bits.drop 8)

/-- The dump record of one byte value: len, then 32 code bytes; all zero when it has no code (30_encoding.md R95). -/
def codeRecord (code : Option Bits) : List Byte :=
  match code with
  | none => List.replicate (1 + Config.codeBytes) 0
  | some bits => BitVec.ofNat 8 bits.length :: packInto Config.codeBytes bits

/-- HufCodesDump (41_huffman_tree.md R157). -/
def hufCodesDump (src : List Byte) (dc : Nat) : Except ErrCode Output :=
  if dc < Config.codesDumpLen then .error .dstOverflow
  else
    let code := codeTable src
    .ok { bytes := allBytes.flatMap fun b => codeRecord (codeOf code b), tail := false }

/-- HUF_CODES, opcode 0x05 (41_huffman_tree.md R157). -/
def execHufCodes (s : State) : Host.Outcome State Fault Refusal := .next (runData hufCodesDump s)

end Sys2Proof.Machine
end

