-- ==== Sys2Proof/Machine/HuffPack.lean ====
section
/-! DEFINITION. HUF-PACK (spec/42_huffman_codec.md): HUF_ENC (R180) and HUF_DEC (R190), with the header of
30_encoding.md R93, R96 and R97. -/

namespace Sys2Proof.Machine

/-! ### Encoder -/

/-- The bit stream of an input (42_huffman_codec.md R183). -/
def bitStream (code : CodeTable) (src : List Byte) : Bits := src.flatMap fun b => (codeOf code b).getD []

/-- Pack (42_huffman_codec.md R184). -/
def pack (bits : Bits) : List Byte := packInto (ceilDiv bits.length 8) bits

/-- usableBits of a stream of `t` bits (42_huffman_codec.md R185). -/
def usableBits (t : Nat) : Nat := if t % 8 = 0 then 8 else t % 8

/-- The header of a container (30_encoding.md R97). -/
def header (t : Nat) (tbl : List Entry) : List Byte :=
  BitVec.ofNat 8 (usableBits t) :: BitVec.ofNat 8 (tbl.length % 256) ::
    tbl.flatMap fun e => e.sym :: le32 e.freq

/-- HufEncode (42_huffman_codec.md R180). The empty input gives the empty container (R182). -/
def hufEncode (src : List Byte) (dc : Nat) : Except ErrCode (List Byte) :=
  if src = [] then .ok []
  else
    let tbl := table (freqCount src)
    let bits := bitStream (codeTable src) src
    if 2 + 5 * tbl.length + ceilDiv bits.length 8 > dc then .error .dstOverflow
    else .ok (header bits.length tbl ++ pack bits)

/-- HUF_ENC, opcode 0x01 (42_huffman_codec.md R180). -/
def execHufEnc (s : State) : Host.Outcome State Fault Refusal :=
  .next (runData (fun src dc => (hufEncode src dc).map fun out => { bytes := out, tail := false }) s)

/-! ### Decoder -/

/-- A parsed container (42_huffman_codec.md R191). -/
structure Parsed where
  usable  : Nat
  tbl     : List Entry
  payload : List Byte
  deriving DecidableEq, Repr

/-- The `n` table entries, and the bytes after them (42_huffman_codec.md R191): each sym above the one before it, each
count at least 1. -/
def parseEntries : Nat → Option Byte → List Byte → Except ErrCode (List Entry × List Byte)
  | 0, _, rest => .ok ([], rest)
  | n + 1, prev, s :: b0 :: b1 :: b2 :: b3 :: rest =>
    if prev.any (fun p => decide (s.toNat ≤ p.toNat)) then .error .hufTable
    else if rdle32 b0 b1 b2 b3 = 0 then .error .hufTable
    else do
      let (es, pay) ← parseEntries n (some s) rest
      return ({ sym := s, freq := rdle32 b0 b1 b2 b3 } :: es, pay)
  | _ + 1, _, _ => .error .hufTruncated

/-- tableSize: 0 stands for 256 (30_encoding.md R96). -/
def symbolCount (b : Byte) : Nat := if b = 0 then 256 else b.toNat

/-- ParseHeader (42_huffman_codec.md R191), the checks in its order. -/
def parseHeader : List Byte → Except ErrCode Parsed
  | u :: n :: rest =>
    if u.toNat = 0 ∨ u.toNat > 8 then .error .hufUsableBits
    else if rest.length < 5 * symbolCount n then .error .hufTruncated
    else do
      let (es, pay) ← parseEntries (symbolCount n) none rest
      return { usable := u.toNat, tbl := es, payload := pay }
  | _ => .error .hufTruncated

/-- The bits of a byte, MSB first (42_huffman_codec.md R193). -/
def bitsOfByte (b : Byte) : Bits := (List.range 8).map fun k => b.getLsbD (7 - k)

/-- The usable bit count of a payload of `p` bytes (42_huffman_codec.md R193). -/
def availBits (p u : Nat) : Nat := if p = 0 then 0 else 8 * (p - 1) + u

/-- The usable bits of a payload (42_huffman_codec.md R193). -/
def payloadBits (pay : List Byte) (u : Nat) : Bits := (pay.flatMap bitsOfByte).take (availBits pay.length u)

/-- The child a bit selects (42_huffman_codec.md R193). A leaf has none and stays: the walk never asks it. -/
def Tree.child : Tree → Bool → Tree
  | .leaf b f, _ => .leaf b f
  | .node _ _ l _, false => l
  | .node _ _ _ r, true => r

/-- Walk (42_huffman_codec.md R193) from the node `t`, with `need` bytes still to emit: the bytes, and the bits left. -/
def walkTree (root : Tree) : Tree → Bits → Nat → Except ErrCode (List Byte × Bits)
  | _, bits, 0 => .ok ([], bits)
  | _, [], _ + 1 => .error .hufLength
  | t, bit :: bits, need + 1 =>
    match root with
    | .leaf s _ =>
      if bit then .error .hufCorrupt
      else do
        let (out, left) ← walkTree root root bits need
        return (s :: out, left)
    | .node _ _ _ _ =>
      match t.child bit with
      | .leaf s _ => do
        let (out, left) ← walkTree root root bits need
        return (s :: out, left)
      | t' => walkTree root t' bits (need + 1)

/-- The number of bytes a container declares (42_huffman_codec.md R192). -/
def totalFreq (tbl : List Entry) : Nat := (tbl.map Entry.freq).sum

/-- HufDecode (42_huffman_codec.md R190). A zero-length source gives the empty output. -/
def hufDecode (c : List Byte) (dc : Nat) : Except ErrCode (List Byte) :=
  if c = [] then .ok []
  else do
    let h ← parseHeader c
    if totalFreq h.tbl > dc then .error .dstOverflow
    else
      match buildTree h.tbl with
      | none => .error .hufTruncated
      | some root =>
        match walkTree root root (payloadBits h.payload h.usable) (totalFreq h.tbl) with
        | .error e => .error e
        | .ok (out, []) => .ok out
        | .ok (_, _ :: _) => .error .hufLength

/-- HUF_DEC, opcode 0x02 (42_huffman_codec.md R190). -/
def execHufDec (s : State) : Host.Outcome State Fault Refusal :=
  .next (runData (fun c dc => (hufDecode c dc).map fun out => { bytes := out, tail := false }) s)

end Sys2Proof.Machine
end

