-- ==== Sys2Proof/Machine/LzMatch.lean ====
section
/-! DEFINITION. LZ-MATCH (spec/43_lz77_match.md). A position i of an input is given as the input split there: `past` holds
the bytes before i, the nearest first, and `rest` the bytes from i on. -/

namespace Sys2Proof.Machine

/-- How far the bytes from a candidate on agree with the bytes from the position on (43_lz77_match.md R221). The pattern
`y :: y' :: ys` says `i + k + 1 < L`: a byte is left after the one compared (R222). The first argument is 255 - k. -/
def matchLen : Nat → List Byte → List Byte → Nat
  | f + 1, x :: xs, y :: y' :: ys => if x = y then matchLen f xs (y' :: ys) + 1 else 0
  | _, _, _ => 0

/-- The candidates at distances j + 1, j + 2, ... in turn; `cand` holds the bytes from distance j on. Only a strictly
longer match replaces the best one (43_lz77_match.md R221, R223). -/
def searchBack (rest : List Byte) : List Byte → List Byte → Nat → Nat × Nat → Nat × Nat
  | [], _, _, best => best
  | p :: ps, cand, j, best =>
    let k := matchLen Config.maxMatch (p :: cand) rest
    searchBack rest ps (p :: cand) (j + 1) (if k > best.2 then (j + 1, k) else best)

/-- LongestMatch (43_lz77_match.md R221) at the position that splits the input into `past` and `rest`; distances 1 to
min(255, i) (R220). -/
def longestMatch (past rest : List Byte) : Nat × Nat := searchBack rest (past.take Config.window) rest 0 (0, 0)

end Sys2Proof.Machine
end

