-- ==== Sys2Proof/Machine/LzTuple.lean ====
section
/-! DEFINITION. LZ-TUPLE (spec/44_lz77_tuple.md): LZ_ENC (R240) and LZ_DEC (R243). -/

namespace Sys2Proof.Machine

/-- A tuple: distance, length, literal (44_lz77_tuple.md R241). -/
structure Tuple where
  dist : Byte
  len  : Byte
  lit  : Byte
  deriving DecidableEq, Repr

/-- The three bytes of a tuple (44_lz77_tuple.md R241). -/
def Tuple.bytes (t : Tuple) : List Byte := [t.dist, t.len, t.lit]

/-- The loop of LzEncode from the position that splits the input into `past` and `rest`; each tuple advances by l + 1, so
`fuel` is at most the bytes left (44_lz77_tuple.md R240, R242). -/
def lzTuplesFrom : Nat → List Byte → List Byte → List Tuple
  | 0, _, _ => []
  | _ + 1, _, [] => []
  | fuel + 1, past, y :: ys =>
    let (d, l) := longestMatch past (y :: ys)
    { dist := BitVec.ofNat 8 d, len := BitVec.ofNat 8 l, lit := (y :: ys).getD l 0 } ::
      lzTuplesFrom fuel (((y :: ys).take (l + 1)).reverse ++ past) ((y :: ys).drop (l + 1))

/-- The tuples of an input (44_lz77_tuple.md R240). -/
def lzTuples (src : List Byte) : List Tuple := lzTuplesFrom src.length [] src

/-- LzEncode (44_lz77_tuple.md R240). -/
def lzEncode (src : List Byte) (dc : Nat) : Except ErrCode (List Byte) :=
  let out := (lzTuples src).flatMap Tuple.bytes
  if out.length > dc then .error .dstOverflow else .ok out

/-- LZ_ENC, opcode 0x03 (44_lz77_tuple.md R240). -/
def execLzEnc (s : State) : Host.Outcome State Fault Refusal :=
  .next (runData (fun src dc => (lzEncode src dc).map fun out => { bytes := out, tail := false }) s)

/-- The copy of `l` bytes at distance `d`, one byte at a time; `rout` is the output so far, the last byte first, so
`out[|out| - d]` is its element d - 1 (44_lz77_tuple.md R244). -/
def copyBack (d : Nat) : Nat → List Byte → List Byte
  | 0, rout => rout
  | l + 1, rout => copyBack d l (rout.getD (d - 1) 0 :: rout)

/-- The loop of LzDecode: per tuple LZ_DISTANCE, then DST_OVERFLOW, then the copy and the literal (44_lz77_tuple.md
R243, R244, R247). One or two bytes left over set TAIL (R246). `rout` is the output so far, the last byte first. -/
def lzDecodeFrom (dc : Nat) : List Byte → List Byte → Except ErrCode Output
  | rout, d :: l :: c :: rest =>
    if l.toNat > 0 ∧ (d.toNat = 0 ∨ d.toNat > rout.length) then .error .lzDistance
    else if rout.length + l.toNat + 1 > dc then .error .dstOverflow
    else lzDecodeFrom dc (c :: copyBack d.toNat l.toNat rout) rest
  | rout, left => .ok { bytes := rout.reverse, tail := !left.isEmpty }

/-- LzDecode (44_lz77_tuple.md R243). -/
def lzDecode (c : List Byte) (dc : Nat) : Except ErrCode Output := lzDecodeFrom dc [] c

/-- LZ_DEC, opcode 0x04 (44_lz77_tuple.md R243). -/
def execLzDec (s : State) : Host.Outcome State Fault Refusal := .next (runData lzDecode s)

end Sys2Proof.Machine
end

