-- ==== Sys2Proof/Machine/Dispatch.lean ====
section
/-! DEFINITION. The dispatch of a legal command to its meaning (spec/40_control.md R126). -/

namespace Sys2Proof.Machine

def exec (i : Instr) (s : State) : Host.Outcome State Fault Refusal :=
  match i with
  | .nop => Sys2Proof.Machine.execNop s
  | .hufEnc => Sys2Proof.Machine.execHufEnc s
  | .hufDec => Sys2Proof.Machine.execHufDec s
  | .lzEnc => Sys2Proof.Machine.execLzEnc s
  | .lzDec => Sys2Proof.Machine.execLzDec s
  | .hufCodes => Sys2Proof.Machine.execHufCodes s

end Sys2Proof.Machine
end

