-- ==== Sys2Proof/Machine/HostBus.lean ====
section
/-! DEFINITION. The host's side of the core: the register window (spec/10_state.md R21 to R34), the host's accesses to the
data memory (R45, 70_reset_and_hazards.md R305), and one move of the host agent (00_scope.md R14). -/

namespace Sys2Proof.Machine

/-! ### The register window -/

/-- The offset of a register (10_state.md R21). -/
def Reg.offset : Reg → BitVec 8
  | .id => 0x00
  | .cmd => 0x04
  | .status => 0x08
  | .srcAddr => 0x0C
  | .srcLen => 0x10
  | .dstAddr => 0x14
  | .dstCap => 0x18
  | .dstLen => 0x1C
  | .intEn => 0x20
  | .intStat => 0x24

/-- The register at an offset; none at a reserved or misaligned one (10_state.md R21, R32, R33). -/
def regAt (off : BitVec 8) : Option Reg :=
  match off.toNat with
  | 0x00 => some .id
  | 0x04 => some .cmd
  | 0x08 => some .status
  | 0x0C => some .srcAddr
  | 0x10 => some .srcLen
  | 0x14 => some .dstAddr
  | 0x18 => some .dstCap
  | 0x1C => some .dstLen
  | 0x20 => some .intEn
  | 0x24 => some .intStat
  | _ => none

/-- What a register reads as (10_state.md R22 to R31). A read has no side effect (20_memory.md R67). -/
def readReg (s : State) : Reg → Word
  | .id => Config.idValue
  | .cmd => s.cmd
  | .status => statusWord s
  | .srcAddr => s.srcAddr
  | .srcLen => s.srcLen
  | .dstAddr => s.dstAddr
  | .dstCap => s.dstCap
  | .dstLen => s.dstLen
  | .intEn => (BitVec.ofBool s.cie).setWidth 32
  | .intStat => (BitVec.ofBool s.cip).setWidth 32

/-- A write to CMD: accepted when idle, lost when busy (40_control.md R121, R122). -/
def writeCmd (w : Word) (s : State) : State :=
  match s.eng with
  | .idle => accept w s
  | .busy => loseCommand s

/-- A write to an operand register: ignored while busy (10_state.md R34). -/
def whenIdle (s t : State) : State :=
  match s.eng with
  | .idle => t
  | .busy => s

/-- A write to INT_STAT: a 1 in bit 0 clears CIP (10_state.md R31). -/
def writeIntStat (w : Word) (s : State) : State := if w.getLsbD 0 then acknowledge s else s

/-- A 32-bit write to a register (10_state.md R22 to R34). -/
def writeReg (r : Reg) (w : Word) (s : State) : State :=
  match r with
  | .id => s
  | .cmd => writeCmd w s
  | .status => s
  | .srcAddr => whenIdle s { s with srcAddr := w }
  | .srcLen => whenIdle s { s with srcLen := w }
  | .dstAddr => whenIdle s { s with dstAddr := w }
  | .dstCap => whenIdle s { s with dstCap := w }
  | .dstLen => s
  | .intEn => { s with cie := w.getLsbD 0 }
  | .intStat => writeIntStat w s

/-- A read of the register window: only aligned 32-bit reads answer, any other and a reserved offset read 0 (10_state.md
R32, R33). -/
def readWindow (s : State) (off : BitVec 8) (bytes : Nat) : Word :=
  if bytes = 4 then
    match regAt off with
    | some r => readReg s r
    | none => 0
  else 0

/-- A write of the register window: only aligned 32-bit writes to a register have an effect (10_state.md R32, R33). -/
def writeWindow (off : BitVec 8) (bytes : Nat) (w : Word) (s : State) : State :=
  if bytes = 4 then
    match regAt off with
    | some r => writeReg r w s
    | none => s
  else s

/-- The offset a bus address selects in the 256-byte window at REG_BASE, if it lies there (10_state.md R21, R45). -/
def windowOffset (p : Platform) (a : Addr) : Option (BitVec 8) :=
  if a.extractLsb' 8 24 = p.regBasePage then some (a.extractLsb' 0 8) else none

/-- The bus address of a register: REG_BASE + offset (30_encoding.md R101). -/
def regAddress (p : Platform) (r : Reg) : Addr := p.regBase + r.offset.setWidth 32

/-! ### The host's accesses -/

/-- A data command is running: between its acceptance and its completion (70_reset_and_hazards.md R305). -/
def runsDataCommand (s : State) : Bool :=
  match s.eng with
  | .idle => false
  | .busy =>
    match decode s.cmd with
    | .ok i => i.isData
    | .error _ => false

/-- A host write of one byte of the data memory: a fault on a window of a running data command (R305). -/
def hostMemWrite (a : Addr) (v : Byte) (s : State) : Host.Outcome State Fault Refusal :=
  if runsDataCommand s && s.inSource a then .fault .hostWroteSourceWindow
  else if runsDataCommand s && s.inDestination a then .fault .hostWroteDestinationWindow
  else .next { s with mem := s.mem.write a v }

/-- The host's names with one of them set. -/
def setVar (vars : List (VarName × Word)) (n : VarName) (w : Word) : List (VarName × Word) :=
  (n, w) :: vars.filter fun p => p.1 != n

/-- The value of a name; one that no read has set holds 0 (DESIGN CHOICE, notes/assumptions/14.md). -/
def getVar (vars : List (VarName × Word)) (n : VarName) : Word :=
  match vars.find? fun p => p.1 == n with
  | some p => p.2
  | none => 0

/-- The host keeps a value under a name. -/
def State.keep (s : State) (n : VarName) (w : Word) : State :=
  { s with host := { s.host with vars := setVar s.host.vars n w } }

/-- A host read of one byte of the data memory: any value in the destination window of a running data command, else the
memory's byte (R305). -/
def hostMemRead (a : Addr) (n : VarName) (s : State) : State :=
  if runsDataCommand s && s.inDestination a then
    { s.keep n ((Config.freeByte s.draws).setWidth 32) with draws := s.draws + 1 }
  else s.keep n ((s.mem.read a).setWidth 32)

/-- A host read on the bus. The core answers in its register window only; what else answers is a free word (DESIGN CHOICE,
notes/assumptions/12.md). -/
def hostBusRead (a : Addr) (bytes : Nat) (n : VarName) (s : State) : State :=
  match windowOffset s.platform a with
  | some off => s.keep n (readWindow s off bytes)
  | none => { s.keep n (Config.freeWord s.draws) with draws := s.draws + 1 }

/-- A host write on the bus. The core sees it in its register window only. -/
def hostBusWrite (a : Addr) (bytes : Nat) (w : Word) (s : State) : State :=
  match windowOffset s.platform a with
  | some off => writeWindow off bytes w s
  | none => s

/-- The host goes on at `pc`. -/
def State.goTo (s : State) (pc : Nat) : State := { s with host := { s.host with pc := pc } }

/-- What one move of the host does. -/
def hostOp (op : HostOp) (s : State) : Host.Outcome State Fault Refusal :=
  match op with
  | .busWrite a bytes w => .next (hostBusWrite a bytes w s)
  | .busRead a bytes n => .next (hostBusRead a bytes n s)
  | .memWrite a v => hostMemWrite a v s
  | .memRead a n => .next (hostMemRead a n s)
  | .branch n bit target => .next (if (getVar s.host.vars n).getLsbD bit then s.goTo target else s)

/-- The host's move: its next statement; after its last one it does nothing. -/
def hostStep (s : State) : Host.Outcome State Fault Refusal :=
  match s.host.prog[s.host.pc]? with
  | some op => hostOp op (s.goTo (s.host.pc + 1))
  | none => .next s

end Sys2Proof.Machine
end

