-- ==== Sys2Proof/Machine/Agents.lean ====
section
/-! DEFINITION. The moves of the agents (spec/00_scope.md R14, 40_control.md R120, 70_reset_and_hazards.md R300), and the
choice of who moves (93_implementation_defined.md S8, notes/assumptions/1.md). -/

namespace Sys2Proof.Machine

/-- The engine performs the command in CMD (40_control.md R120, R126). -/
def performCommand (s : State) : Host.Outcome State Fault Refusal :=
  match decode s.cmd with
  | .ok i => exec i s
  | .error _ => execIllegal s

/-- The engine's move: none while the core is idle (00_scope.md R14). -/
def engineStep (s : State) : Host.Outcome State Fault Refusal :=
  match s.eng with
  | .idle => .next s
  | .busy => performCommand s

/-- The move of whoever has the turn. -/
def turnStep (t : Turn) (s : State) : Host.Outcome State Fault Refusal :=
  match t with
  | .engine => engineStep s
  | .host => hostStep s
  | .reset => .next (resetCore s)

/-- Who moves when no turn is listed: a busy engine, so that its step is eventually taken (70_reset_and_hazards.md R312),
else the host. -/
def defaultTurn (s : State) : Turn :=
  match s.eng with
  | .idle => .host
  | .busy => .engine

/-- Who moves next. -/
def nextTurn (s : State) : Turn :=
  match s.turns with
  | [] => defaultTurn s
  | t :: _ => t

/-- The state with the turn that is taken struck off. -/
def popTurn (s : State) : State := { s with turns := s.turns.tail }

/-- The state in which the engine's next move performs the command word `w`: `w` accepted (40_control.md R121) and the
engine's turn. -/
def issueWord (w : Word) (s : State) : State := { accept w s with turns := .engine :: s.turns }

end Sys2Proof.Machine
end

