-- ==== Sys2Proof/Machine/Step.lean ====
section
/-! DEFINITION. One step of the machine: the move of the agent whose turn it is. -/

namespace Sys2Proof.Machine

def step (s : State) : Host.Outcome State Fault Refusal := turnStep (nextTurn s) (popTurn s)

/-- `s` with a command word of `nbits` bits where the next step takes it: latched in CMD by an acceptance (spec/
40_control.md R121, 20_memory.md R74), the engine moving next (notes/assumptions/2.md). -/
def State.withFetchWord (s : State) (nbits w : Nat) : State := issueWord (BitVec.ofNat 32 (w % 2 ^ nbits)) s

end Sys2Proof.Machine
end

