-- ==== Sys2Proof/Machine/HostProgram.lean ====
section
/-! DEFINITION. Host programs (spec/30_encoding.md R101, R102): the expansion of pseudo-statements, and the assembly of
statements into the host agent's moves. -/

namespace Sys2Proof.Machine

/-- The name WAIT reads STATUS into (30_encoding.md R102, `s`). -/
def waitName : VarName := 0

/-- `WAIT` with its fresh label (30_encoding.md R102). -/
def waitStmts (k : Nat) : List HostStmt :=
  [.label (.fresh k), .rd .status waitName, .bnz waitName 0 (.fresh k)]

/-- `RUN` without its WAIT (30_encoding.md R102). -/
def issueStmts (i : Instr) (sa sl da dc : Word) : List HostStmt :=
  [.wr .srcAddr sa, .wr .srcLen sl, .wr .dstAddr da, .wr .dstCap dc, .wr .cmd (encode i)]

/-- The expansion of pseudo-statements (30_encoding.md R102); `k` is the next fresh label. -/
def expand : Nat → List HostLine → List HostStmt
  | _, [] => []
  | k, .stmt st :: ls => st :: expand k ls
  | k, .cmd i :: ls => .wr .cmd (encode i) :: expand k ls
  | k, .wait :: ls => waitStmts k ++ expand (k + 1) ls
  | k, .ack :: ls => .wr .intStat 0x1 :: expand k ls
  | k, .run i sa sl da dc :: ls => issueStmts i sa sl da dc ++ waitStmts k ++ expand (k + 1) ls

/-- How many moves a statement takes: a MEM statement is one byte write per byte, a label none (30_encoding.md R101). -/
def HostStmt.size : HostStmt → Nat
  | .wr _ _ => 1
  | .rd _ _ => 1
  | .mem _ bytes => bytes.length
  | .label _ => 0
  | .bnz _ _ _ => 1

/-- The index of the move a label names, counting from `pc`. -/
def labelIndex (l : Label) : Nat → List HostStmt → Option Nat
  | _, [] => none
  | pc, st :: p => if st = .label l then some pc else labelIndex l (pc + st.size) p

/-- The byte writes of a MEM statement. -/
def memWrites : Addr → List Byte → List HostOp
  | _, [] => []
  | a, b :: bs => .memWrite a b :: memWrites (a + 1) bs

/-- The moves of one statement (30_encoding.md R101, the bus transaction column). A branch to a label the program lacks has
none; `hostProgramWellFormed` refuses such a program. -/
def HostStmt.ops (p : Platform) (prog : List HostStmt) : HostStmt → Option (List HostOp)
  | .wr r w => some [.busWrite (regAddress p r) 4 w]
  | .rd r n => some [.busRead (regAddress p r) 4 n]
  | .mem a bytes => some (memWrites a bytes)
  | .label _ => some []
  | .bnz n bit l => (labelIndex l 0 prog).map fun t => [.branch n bit t]

/-- The moves of the statements `todo` of the program `prog`. -/
def assembleFrom (p : Platform) (prog : List HostStmt) : List HostStmt → Option (List HostOp)
  | [] => some []
  | st :: todo =>
    match st.ops p prog, assembleFrom p prog todo with
    | some ops, some rest => some (ops ++ rest)
    | _, _ => none

/-- A host program as the host agent runs it (30_encoding.md R101, R102). -/
def assemble (p : Platform) (ls : List HostLine) : Option (List HostOp) :=
  assembleFrom p (expand 0 ls) (expand 0 ls)

/-- The machine with a host program at its first move. -/
def State.withHostProgram (s : State) (ops : List HostOp) : State :=
  { s with host := { prog := ops, pc := 0, vars := [] } }

end Sys2Proof.Machine
end

