-- ==== Sys2Proof/Safety.lean ====
section
/-! DEFINITION. The terms the claims are stated in: legal windows, accesses without bus error, what a completed and what a
failed command leave, the machine's invariant, and two loops of the spec written out by index to compare with. -/

namespace Sys2Proof.Machine

/-! ### Windows and bus errors -/

/-- The source window's bytes, lowest address first (spec/20_memory.md R65). -/
def State.sourceBytes (s : State) : List Byte := s.mem.readBytes s.srcAddr s.srcLen.toNat

/-- Both windows end at or below 2^32 and do not share a byte: no RANGE, no OVERLAP (40_control.md R124). -/
def WindowsLegal (s : State) : Prop :=
  s.srcAddr.toNat + s.srcLen.toNat ≤ 2 ^ 32 ∧ s.dstAddr.toNat + s.dstCap.toNat ≤ 2 ^ 32 ∧
    ¬(0 < s.srcLen.toNat ∧ 0 < s.dstCap.toNat ∧ s.srcAddr.toNat < s.dstAddr.toNat + s.dstCap.toNat ∧
      s.dstAddr.toNat < s.srcAddr.toNat + s.srcLen.toNat)

/-- The platform answers no read of the source window with an error (00_scope.md R6). -/
def CleanReads (s : State) : Prop := ∀ a : Addr, s.inSource a = true → s.platform.errs .read a = false

/-- The platform answers no write of the first `n` bytes of the destination window with an error (00_scope.md R6). -/
def CleanWrites (s : State) (n : Nat) : Prop :=
  ∀ a : Addr, s.dstAddr.toNat ≤ a.toNat → a.toNat < s.dstAddr.toNat + n → s.platform.errs .write a = false

/-- F_op, the pure function of each command (40_control.md R126). NOP returns `([], 0)` (R125). -/
def commandFunction : Instr → List Byte → Nat → Except ErrCode Output
  | .nop, _, _ => .ok { bytes := [], tail := false }
  | .hufEnc, src, dc => (hufEncode src dc).map fun out => { bytes := out, tail := false }
  | .hufDec, c, dc => (hufDecode c dc).map fun out => { bytes := out, tail := false }
  | .lzEnc, src, dc => (lzEncode src dc).map fun out => { bytes := out, tail := false }
  | .lzDec, c, dc => lzDecode c dc
  | .hufCodes, src, dc => hufCodesDump src dc

/-! ### What a command leaves -/

/-- What no command changes: CMD, the operand registers, INT_EN, the platform, the host agent and the turns. -/
structure SameSetup (s t : State) : Prop where
  cmd : t.cmd = s.cmd
  srcAddr : t.srcAddr = s.srcAddr
  srcLen : t.srcLen = s.srcLen
  dstAddr : t.dstAddr = s.dstAddr
  dstCap : t.dstCap = s.dstCap
  cie : t.cie = s.cie
  platform : t.platform = s.platform
  host : t.host = s.host
  turns : t.turns = s.turns

/-- `t` is `s` after a command that succeeded with `out` and `tail` (40_control.md R120, 20_memory.md R66). -/
structure SucceededWith (s t : State) (out : List Byte) (tail : Bool) : Prop where
  setup : SameSetup s t
  dstLen : t.dstLen.toNat = out.length
  status : t.status =
    { done := true, err := false, tail := tail, cmdLost := s.status.cmdLost, errCode := none }
  idle : t.eng = .idle
  pending : t.cip = true
  written : t.mem.readBytes s.dstAddr out.length = out
  unwritten : ∀ a : Addr, a.toNat < s.dstAddr.toNat ∨ s.dstAddr.toNat + out.length ≤ a.toNat →
    t.mem.read a = s.mem.read a

/-- `t` is `s` after a command that failed with `code` (40_control.md R120, R127). The destination window may hold
anything, unless no access was made. -/
structure FailedWith (s t : State) (code : ErrCode) : Prop where
  setup : SameSetup s t
  dstLen : t.dstLen = 0
  status : t.status =
    { done := true, err := true, tail := false, cmdLost := s.status.cmdLost, errCode := some code }
  idle : t.eng = .idle
  pending : t.cip = true
  outside : ∀ a : Addr, s.inDestination a = false → t.mem.read a = s.mem.read a
  untouched : code = .illegalCmd ∨ code = .range ∨ code = .overlap → t.mem = s.mem

/-! ### The invariant -/

/-- The invariants of 10_state.md R24, with 70_reset_and_hazards.md R308 and 10_state.md R29 for DST_LEN, and the canonical
form of the data memory. -/
structure MachineInv (s : State) : Prop where
  memory : Memory.wf s.mem
  busy : s.eng = .busy → s.status.done = false ∧ s.status.err = false ∧ s.status.tail = false ∧ s.status.errCode = none
  err : s.status.err = true ↔ s.status.done = true ∧ s.status.errCode ≠ none
  tail : s.status.tail = true → s.status.done = true ∧ s.status.err = false
  fresh : s.status.done = false → s.dstLen = 0
  failed : s.status.err = true → s.dstLen = 0

/-- The next move is a host write to a window of the running data command, the hazard of 70_reset_and_hazards.md R305. -/
def HazardNext (s : State) : Prop :=
  nextTurn s = .host ∧ runsDataCommand s = true ∧
    ∃ a v, s.host.prog[s.host.pc]? = some (.memWrite a v) ∧ (s.inSource a = true ∨ s.inDestination a = true)

/-! ### Trees -/

/-- The leaves of a tree, left to right. -/
def Tree.leaves : Tree → List Entry
  | .leaf b f => [{ sym := b, freq := f }]
  | .node _ _ l r => l.leaves ++ r.leaves

/-- The number of internal nodes. -/
def Tree.internalNodes : Tree → Nat
  | .leaf _ _ => 0
  | .node _ _ l r => l.internalNodes + r.internalNodes + 1

/-- The sym of the leftmost leaf (41_huffman_tree.md R146). -/
def Tree.leftmost : Tree → Byte
  | .leaf b _ => b
  | .node _ _ l _ => l.leftmost

/-- Every internal node carries the sum of its children's frequencies and the sym of its leftmost leaf (R144, R146). -/
def Tree.Consistent : Tree → Prop
  | .leaf _ _ => True
  | .node b f l r => f = l.freq + r.freq ∧ b = l.leftmost ∧ l.Consistent ∧ r.Consistent

/-- `key(x) ≤ key(y)`: frequency first, then sym (41_huffman_tree.md R143). -/
def KeyLe (x y : Tree) : Prop := x.freq < y.freq ∨ (x.freq = y.freq ∧ x.sym.toNat ≤ y.sym.toNat)

/-- The loop of BuildTree as 41_huffman_tree.md R144 and R145 write it: `MergesTo S root` says that merging the set `S` until
one node is left gives `root`. Each merge removes a node `a` of smallest key, then a node `c` of smallest key among the others,
and adds the node with `a` on the left, `c` on the right and the sym of `a`. -/
inductive MergesTo : List Tree → Tree → Prop
  | done (root : Tree) : MergesTo [root] root
  | merge (nodes rest : List Tree) (a c root : Tree) : nodes.Perm (a :: c :: rest) → KeyLe a c →
      (∀ x ∈ rest, KeyLe a x ∧ KeyLe c x) → MergesTo (.node a.sym (a.freq + c.freq) a c :: rest) root →
      MergesTo nodes root

/-- A table as the rules have it: syms strictly ascending, every count at least 1 (41_huffman_tree.md R141). -/
def TableLegal (tbl : List Entry) : Prop :=
  tbl.Pairwise (fun x y => x.sym.toNat < y.sym.toNat) ∧ ∀ e ∈ tbl, 1 ≤ e.freq

/-- The 5 bytes of each table entry (30_encoding.md R93). -/
def tableBytes (tbl : List Entry) : List Byte := tbl.flatMap fun e => e.sym :: le32 e.freq

/-! ### Loops of the spec by index -/

/-- The `while` of LongestMatch at distance `j` (43_lz77_match.md R221); it runs at most 255 times. -/
def extendByRule (src : List Byte) (i j : Nat) : Nat → Nat → Nat
  | 0, k => k
  | fuel + 1, k =>
    if k < 255 ∧ i + k + 1 < src.length ∧ src[i - j + k]? = src[i + k]? then extendByRule src i j fuel (k + 1) else k

/-- LongestMatch as 43_lz77_match.md R221 writes it. -/
def longestMatchByRule (src : List Byte) (i : Nat) : Nat × Nat :=
  (List.range (min 255 i)).foldl
    (fun best n =>
      let k := extendByRule src i (n + 1) 255 0
      if k > best.2 then (n + 1, k) else best)
    (0, 0)

/-- The input position of a tuple: each tuple before it advances by its length plus one (44_lz77_tuple.md R242). -/
def tuplePosition (before : List Tuple) : Nat := (before.map fun t => t.len.toNat + 1).sum

/-- LongestMatch of the model at position `i` of an input. -/
def longestMatchAt (src : List Byte) (i : Nat) : Nat × Nat := longestMatch (src.take i).reverse (src.drop i)

/-- The copy loop of LzDecode on the output in order (44_lz77_tuple.md R244). -/
def copyByRule (d : Nat) : Nat → List Byte → List Byte
  | 0, out => out
  | l + 1, out => copyByRule d l (out ++ [out.getD (out.length - d) 0])

/-- LzDecode as 44_lz77_tuple.md R243 writes it; it has at most as many tuples as bytes. -/
def lzDecodeByRule (c : List Byte) (dc : Nat) : Nat → List Byte → Nat → Except ErrCode Output
  | fuel + 1, out, pos =>
    if pos + 3 ≤ c.length then
      let d := (c.getD pos 0).toNat
      let l := (c.getD (pos + 1) 0).toNat
      if l > 0 ∧ (d = 0 ∨ d > out.length) then .error .lzDistance
      else if out.length + l + 1 > dc then .error .dstOverflow
      else lzDecodeByRule c dc fuel (copyByRule d l out ++ [c.getD (pos + 2) 0]) (pos + 3)
    else .ok { bytes := out, tail := c.length - pos == 1 || c.length - pos == 2 }
  | 0, out, pos => .ok { bytes := out, tail := c.length - pos == 1 || c.length - pos == 2 }

end Sys2Proof.Machine
end

