-- ==== Sys2Proof/WellFormed.lean ====
section
/-! DEFINITION. Well-formedness: of command words (spec/30_encoding.md R90), of commands (they have no operand, so each
is well formed), and of host programs (R101). -/

namespace Sys2Proof

/-- A command word is legal if and only if RSVD = 0 and OPCODE is assigned (30_encoding.md R90). -/
def legalWord (w : Word) : Bool := rsvdField w == 0 && decide (opcodeField w ≤ 0x05)

/-- A command is well formed when its word is legal. It has no operand to check (30_encoding.md R90). -/
def Instr.wellFormed (i : Instr) : Bool := legalWord (encode i)

namespace Machine

/-- The labels a program defines, in order. -/
def labelsOf : List HostStmt → List Label
  | [] => []
  | .label l :: p => l :: labelsOf p
  | .wr _ _ :: p => labelsOf p
  | .rd _ _ :: p => labelsOf p
  | .mem _ _ :: p => labelsOf p
  | .bnz _ _ _ :: p => labelsOf p

/-- A branch tests a bit of a 32-bit value and goes to a label of the program (30_encoding.md R101). -/
def HostStmt.wellFormed (labels : List Label) : HostStmt → Bool
  | .wr _ _ => true
  | .rd _ _ => true
  | .mem _ _ => true
  | .label _ => true
  | .bnz _ bit l => decide (bit < 32) && labels.contains l

/-- A host program names each label once and branches only to labels it names. -/
def hostProgramWellFormed (p : List HostStmt) : Bool :=
  decide (labelsOf p).Nodup && p.all (HostStmt.wellFormed (labelsOf p))

end Machine

end Sys2Proof
end

