-- ==== Sys2Proof/Certificates/Slice0/Obligations.lean ====
section
/-! DEFINITION. The statements for the provers. Each docstring names the rule of spec/ it formalises. -/

open Sys2Proof Sys2Proof.Machine

/-! ### Command words -/

/-- 30_encoding.md R90: a word is legal if and only if bits 31:8 are zero and bits 7:0 are an assigned opcode. -/
def Obligations.LegalWordsHaveZeroReservedBitsAndAssignedOpcode : Prop :=
  ∀ w : Word, (∃ i, decode w = .ok i) ↔ w.extractLsb' 8 24 = 0 ∧ (w.extractLsb' 0 8).toNat ≤ 0x05

/-- 30_encoding.md R91, R103: each command has exactly one word, and decoding and encoding agree in both directions. -/
def Obligations.DecodingIsInverseToEncoding : Prop :=
  ∀ (w : Word) (i : Instr), decode w = .ok i ↔ w = encode i

/-- 30_encoding.md R91, R99: the words of the opcode map, and three illegal words. -/
def Obligations.OpcodeWordsDecodeAsListed : Prop :=
  decode 0x00000000 = .ok .nop ∧ decode 0x00000001 = .ok .hufEnc ∧ decode 0x00000002 = .ok .hufDec ∧
  decode 0x00000003 = .ok .lzEnc ∧ decode 0x00000004 = .ok .lzDec ∧ decode 0x00000005 = .ok .hufCodes ∧
  decode 0x00000006 = .error .reservedOpcode ∧ decode 0x000000FF = .error .reservedOpcode ∧
  decode 0x00000101 = .error .reservedBits

/-! ### The engine's step -/

/-- 40_control.md R120, R126: a busy engine whose turn it is performs the command that CMD decodes to; around `exec` the step
only strikes the turn off. -/
def Obligations.EngineTurnRunsTheDecodedCommand : Prop :=
  ∀ (s : State) (i : Instr), s.eng = .busy → nextTurn s = .engine → decode s.cmd = .ok i →
    step s = exec i { s with turns := s.turns.tail }

/-- 40_control.md R123: a word with a reserved bit or a reserved opcode completes with ILLEGAL_CMD, and nothing but STATUS,
DST_LEN, CIP and the engine changes (the turn is struck off). -/
def Obligations.IllegalWordCompletesWithIllegalCmd : Prop :=
  ∀ s : State, s.eng = .busy → nextTurn s = .engine →
    s.cmd.extractLsb' 8 24 ≠ 0 ∨ 0x06 ≤ (s.cmd.extractLsb' 0 8).toNat →
    step s = .next { s with
      turns := s.turns.tail
      dstLen := 0
      status := { done := true, err := true, tail := false, cmdLost := s.status.cmdLost, errCode := some .illegalCmd }
      cip := true
      eng := .idle }

/-- 40_control.md R120, R66 of 20_memory.md: every command, from every state, completes: the engine is idle, DONE and CIP are
set, ERR says whether there is a code, an error leaves DST_LEN 0, CMD_LOST and the setup keep their values, and no byte
outside the destination window changes. -/
def Obligations.EveryCommandCompletesWithinItsFrame : Prop :=
  ∀ (i : Instr) (s : State), ∃ t, exec i s = .next t ∧ SameSetup s t ∧ t.eng = .idle ∧ t.cip = true ∧
    t.status.done = true ∧ (t.status.err = true ↔ t.status.errCode ≠ none) ∧ (t.status.err = true → t.dstLen = 0) ∧
    (t.status.tail = true → i = .lzDec ∧ t.status.err = false) ∧ t.status.cmdLost = s.status.cmdLost ∧
    ∀ a : Addr, s.inDestination a = false → t.mem.read a = s.mem.read a

/-- 40_control.md R125: NOP completes with success from every state, whatever the windows, and touches no memory. -/
def Obligations.NopCompletesWithSuccess : Prop :=
  ∀ s : State, exec .nop s = .next { s with
    dstLen := 0
    status := { done := true, err := false, tail := false, cmdLost := s.status.cmdLost, errCode := none }
    cip := true
    eng := .idle }

/-- 60_exceptions.md R274: a data command whose source or destination window passes 2^32 completes with RANGE; no memory is
accessed and the registers keep the offending values. -/
def Obligations.WindowPastTheTopFailsWithRange : Prop :=
  ∀ (i : Instr) (s : State), i ≠ .nop →
    s.srcAddr.toNat + s.srcLen.toNat > 2 ^ 32 ∨ s.dstAddr.toNat + s.dstCap.toNat > 2 ^ 32 →
    exec i s = .next { s with
      dstLen := 0
      status := { done := true, err := true, tail := false, cmdLost := s.status.cmdLost, errCode := some .range }
      cip := true
      eng := .idle }

/-- 60_exceptions.md R275: a data command whose windows (both in range) share a byte completes with OVERLAP; no memory is
accessed. -/
def Obligations.WindowsSharingAByteFailWithOverlap : Prop :=
  ∀ (i : Instr) (s : State) (a : Addr), i ≠ .nop →
    s.srcAddr.toNat + s.srcLen.toNat ≤ 2 ^ 32 → s.dstAddr.toNat + s.dstCap.toNat ≤ 2 ^ 32 →
    s.inSource a = true → s.inDestination a = true →
    exec i s = .next { s with
      dstLen := 0
      status := { done := true, err := true, tail := false, cmdLost := s.status.cmdLost, errCode := some .overlap }
      cip := true
      eng := .idle }

/-- 60_exceptions.md R276, R278, 20_memory.md R65: with legal windows, a bus error on any byte of the source window fails the
data command with BUS_READ, before the command's own checks. -/
def Obligations.SourceBusErrorFailsWithBusRead : Prop :=
  ∀ (i : Instr) (s : State) (a : Addr), i ≠ .nop → WindowsLegal s → s.inSource a = true →
    s.platform.errs .read a = true → ∃ t, exec i s = .next t ∧ FailedWith s t .busRead

/-- 40_control.md R126, 60_exceptions.md R278: with legal windows and no bus error on the reads, the error of the command's
function is the error of the command. -/
def Obligations.FunctionErrorIsTheCommandsError : Prop :=
  ∀ (i : Instr) (s : State) (e : ErrCode), i ≠ .nop → WindowsLegal s → CleanReads s →
    commandFunction i s.sourceBytes s.dstCap.toNat = .error e → ∃ t, exec i s = .next t ∧ FailedWith s t e

/-- 60_exceptions.md R276, R278: when the function succeeds, a bus error on a byte of its output fails the command with
BUS_WRITE. -/
def Obligations.OutputBusErrorFailsWithBusWrite : Prop :=
  ∀ (i : Instr) (s : State) (out : Output) (a : Addr), i ≠ .nop → WindowsLegal s → CleanReads s →
    commandFunction i s.sourceBytes s.dstCap.toNat = .ok out → s.dstAddr.toNat ≤ a.toNat →
    a.toNat < s.dstAddr.toNat + out.bytes.length → s.platform.errs .write a = true →
    ∃ t, exec i s = .next t ∧ FailedWith s t .busWrite

/-! ### The data commands complete -/

/-- 42_huffman_codec.md R180 to R184, 20_memory.md R66: HUF_ENC with room for the container of its source bytes, which is
empty for no bytes and else header and packed bit stream, writes it and completes. -/
def Obligations.HufEncWritesTheContainer : Prop :=
  ∀ s : State, Memory.wf s.mem → WindowsLegal s → CleanReads s →
    let src := s.sourceBytes
    let bits := bitStream (codeTable src) src
    let container := if src = [] then [] else header bits.length (table (freqCount src)) ++ pack bits
    container.length ≤ s.dstCap.toNat → CleanWrites s container.length →
    ∃ t, exec .hufEnc s = .next t ∧ SucceededWith s t container false

/-- 42_huffman_codec.md R190, R195, 20_memory.md R66: HUF_DEC of a container that HUF_ENC makes from `b` writes `b` and
completes, and so it does with the output of any container it decodes. -/
def Obligations.HufDecWritesTheDecodedBytes : Prop :=
  ∀ (s : State) (b : List Byte), Memory.wf s.mem → WindowsLegal s → CleanReads s →
    hufDecode s.sourceBytes s.dstCap.toNat = .ok b ∨
      (b.length < 2 ^ 32 ∧ b.length ≤ s.dstCap.toNat ∧ ∃ dc, hufEncode b dc = .ok s.sourceBytes) →
    CleanWrites s b.length → ∃ t, exec .hufDec s = .next t ∧ SucceededWith s t b false

/-- 44_lz77_tuple.md R240, R241, 20_memory.md R66: LZ_ENC with room for the three bytes of each tuple of its source bytes
writes the tuples and completes. -/
def Obligations.LzEncWritesTheTuples : Prop :=
  ∀ s : State, Memory.wf s.mem → WindowsLegal s → CleanReads s →
    3 * (lzTuples s.sourceBytes).length ≤ s.dstCap.toNat → CleanWrites s (3 * (lzTuples s.sourceBytes).length) →
    ∃ t, exec .lzEnc s = .next t ∧ SucceededWith s t ((lzTuples s.sourceBytes).flatMap Tuple.bytes) false

/-- 44_lz77_tuple.md R243, R246, R248, 20_memory.md R66: LZ_DEC of a stream that LZ_ENC makes from `b` writes `b`, TAIL 0, and
completes, and so it does with the output and TAIL of any stream it decodes. -/
def Obligations.LzDecWritesTheDecodedBytes : Prop :=
  ∀ (s : State) (out : Output), Memory.wf s.mem → WindowsLegal s → CleanReads s →
    lzDecode s.sourceBytes s.dstCap.toNat = .ok out ∨
      (out.tail = false ∧ out.bytes.length ≤ s.dstCap.toNat ∧ ∃ dc, lzEncode out.bytes dc = .ok s.sourceBytes) →
    CleanWrites s out.bytes.length → ∃ t, exec .lzDec s = .next t ∧ SucceededWith s t out.bytes out.tail

/-- 41_huffman_tree.md R157, 30_encoding.md R95: HUF_CODES with room for 8448 bytes writes the dump, 256 records of 33 bytes,
and completes. -/
def Obligations.HufCodesWritesTheDump : Prop :=
  ∀ s : State, Memory.wf s.mem → WindowsLegal s → CleanReads s → CleanWrites s 8448 → 8448 ≤ s.dstCap.toNat →
    ∃ t out, exec .hufCodes s = .next t ∧ SucceededWith s t out false ∧ out.length = 8448 ∧
      ∀ b : Byte, (out.drop (33 * b.toNat)).take 33 = codeRecord (codeOf (codeTable s.sourceBytes) b)

/-- 60_exceptions.md R277: with legal windows and clean reads, HUF_CODES with DST_CAP below 8448, LZ_ENC with more than
DST_CAP bytes of tuples and HUF_ENC of a container longer than DST_CAP fail with DST_OVERFLOW. -/
def Obligations.EncodersOverflowWhenTheOutputIsTooLong : Prop :=
  ∀ s : State, WindowsLegal s → CleanReads s →
    (s.dstCap.toNat < 8448 → ∃ t, exec .hufCodes s = .next t ∧ FailedWith s t .dstOverflow) ∧
    (s.dstCap.toNat < 3 * (lzTuples s.sourceBytes).length →
      ∃ t, exec .lzEnc s = .next t ∧ FailedWith s t .dstOverflow) ∧
    (∀ (dc : Nat) (c : List Byte), hufEncode s.sourceBytes dc = .ok c → s.dstCap.toNat < c.length →
      ∃ t, exec .hufEnc s = .next t ∧ FailedWith s t .dstOverflow)

/-! ### The register window -/

/-- 40_control.md R121: a 32-bit host write of any word to CMD while idle is accepted: CMD takes the word, STATUS becomes
0x0000_0001, DST_LEN 0, the engine busy; CIP, memory and all else keep their values. -/
def Obligations.CmdWriteWhileIdleIsAccepted : Prop :=
  ∀ (s : State) (w : Word), s.eng = .idle →
    ∃ t, hostOp (.busWrite (regAddress s.platform .cmd) 4 w) s = .next t ∧ statusWord t = 0x00000001 ∧
      t = { s with
        cmd := w
        eng := .busy
        dstLen := 0
        status := { done := false, err := false, tail := false, cmdLost := false, errCode := none } }

/-- 40_control.md R122: a host write to CMD while busy only sets CMD_LOST. -/
def Obligations.CmdWriteWhileBusyIsLost : Prop :=
  ∀ (s : State) (w : Word), s.eng = .busy →
    hostOp (.busWrite (regAddress s.platform .cmd) 4 w) s =
      .next { s with status := { s.status with cmdLost := true } }

/-- 10_state.md R34: while busy, writes to the four operand registers are ignored, and writes to INT_EN and INT_STAT take
effect. -/
def Obligations.OperandWritesWhileBusyAreIgnored : Prop :=
  ∀ (s : State) (w : Word), s.eng = .busy →
    (∀ r ∈ [Reg.srcAddr, .srcLen, .dstAddr, .dstCap],
      hostOp (.busWrite (regAddress s.platform r) 4 w) s = .next s) ∧
    hostOp (.busWrite (regAddress s.platform .intEn) 4 w) s = .next { s with cie := w.getLsbD 0 } ∧
    hostOp (.busWrite (regAddress s.platform .intStat) 4 w) s = .next { s with cip := s.cip && !w.getLsbD 0 }

/-- 10_state.md R25 to R28: while idle, a write to an operand register changes that register only, and a read returns it. -/
def Obligations.OperandRegistersReadBack : Prop :=
  ∀ (s : State) (r : Reg) (w : Word) (n : VarName), s.eng = .idle → r ∈ [Reg.srcAddr, .srcLen, .dstAddr, .dstCap] →
    ∃ t u, hostOp (.busWrite (regAddress s.platform r) 4 w) s = .next t ∧
      hostOp (.busRead (regAddress s.platform r) 4 n) t = .next u ∧ getVar u.host.vars n = w ∧
      (∀ r' : Reg, r' ≠ r → readReg t r' = readReg s r') ∧
      t.mem = s.mem ∧ t.cie = s.cie ∧ t.cip = s.cip ∧ t.platform = s.platform ∧ t.host = s.host

/-- 10_state.md R30, R31, R43, 60_exceptions.md R281: busy or not, INT_EN holds bit 0 of what is written, INT_STAT bit 0
written 1 clears CIP, both read their bit with 0 above it, and irq is asserted when both bits are 1. -/
def Obligations.InterruptRegistersAndLine : Prop :=
  ∀ (s : State) (w : Word),
    hostOp (.busWrite (regAddress s.platform .intEn) 4 w) s = .next { s with cie := w.getLsbD 0 } ∧
    hostOp (.busWrite (regAddress s.platform .intStat) 4 w) s = .next { s with cip := s.cip && !w.getLsbD 0 } ∧
    readReg s .intEn = (if s.cie then 1 else 0) ∧ readReg s .intStat = (if s.cip then 1 else 0) ∧
    (irq s = true ↔ s.cie = true ∧ s.cip = true)

/-- 10_state.md R22: ID reads 0x4443_0007 in every state, a write to it is ignored, and reset does not change it. -/
def Obligations.IdIsHardwired : Prop :=
  ∀ (s : State) (w : Word), readReg s .id = 0x44430007 ∧ readReg (resetCore s) .id = 0x44430007 ∧
    hostOp (.busWrite (regAddress s.platform .id) 4 w) s = .next s

/-- 10_state.md R24, 60_exceptions.md R271: the bits of STATUS, the number of each error code, and a write to STATUS or DST_LEN
is ignored. -/
def Obligations.StatusWordShowsItsFields : Prop :=
  ∀ (s : State) (w : Word),
    (statusWord s).getLsbD 0 = decide (s.eng = .busy) ∧ (statusWord s).getLsbD 1 = s.status.done ∧
    (statusWord s).getLsbD 2 = s.status.err ∧ (statusWord s).getLsbD 3 = s.status.tail ∧
    (statusWord s).getLsbD 4 = s.status.cmdLost ∧ (statusWord s).extractLsb' 5 3 = 0 ∧
    (statusWord s).extractLsb' 16 16 = 0 ∧
    (∀ c n, (c, n) ∈ [(none, (0x00 : BitVec 8)), (some ErrCode.illegalCmd, 0x01), (some .range, 0x02),
        (some .overlap, 0x03), (some .busRead, 0x04), (some .busWrite, 0x05), (some .dstOverflow, 0x06),
        (some .hufTruncated, 0x10), (some .hufUsableBits, 0x11), (some .hufTable, 0x12), (some .hufCorrupt, 0x13),
        (some .hufLength, 0x14), (some .lzDistance, 0x20)] →
      s.status.errCode = c → (statusWord s).extractLsb' 8 8 = n) ∧
    hostOp (.busWrite (regAddress s.platform .status) 4 w) s = .next s ∧
    hostOp (.busWrite (regAddress s.platform .dstLen) 4 w) s = .next s

/-- 10_state.md R32: offsets 0x28 to 0xFF read 0 and ignore writes, at every width. -/
def Obligations.ReservedOffsetsReadZero : Prop :=
  ∀ (s : State) (off : BitVec 8) (bytes : Nat) (w : Word) (n : VarName), 0x28 ≤ off.toNat →
    hostOp (.busWrite (s.platform.regBase + off.setWidth 32) bytes w) s = .next s ∧
    ∃ t, hostOp (.busRead (s.platform.regBase + off.setWidth 32) bytes n) s = .next t ∧
      getVar t.host.vars n = 0 ∧ { t with host := s.host } = s

/-- 10_state.md R33: an access of the register window that is not 32 bits wide or not 4-byte aligned reads 0 and writes
nothing. -/
def Obligations.OddRegisterAccessesReadZeroAndWriteNothing : Prop :=
  ∀ (s : State) (off : BitVec 8) (bytes : Nat) (w : Word) (n : VarName), bytes ≠ 4 ∨ off.toNat % 4 ≠ 0 →
    hostOp (.busWrite (s.platform.regBase + off.setWidth 32) bytes w) s = .next s ∧
    ∃ t, hostOp (.busRead (s.platform.regBase + off.setWidth 32) bytes n) s = .next t ∧
      getVar t.host.vars n = 0 ∧ { t with host := s.host } = s

/-- 10_state.md R22 to R31, 20_memory.md R67: a 32-bit read of each register of the map answers what the register holds, and a
read of any offset of the register window, at any width, changes nothing but the host's own name. -/
def Obligations.RegisterReadsHaveNoSideEffect : Prop :=
  ∀ (s : State) (n : VarName),
    (∀ r : Reg, ∃ t, hostOp (.busRead (regAddress s.platform r) 4 n) s = .next t ∧
      getVar t.host.vars n = readReg s r ∧ { t with host := s.host } = s) ∧
    readReg s .id = 0x44430007 ∧ readReg s .cmd = s.cmd ∧ readReg s .status = statusWord s ∧
    readReg s .srcAddr = s.srcAddr ∧ readReg s .srcLen = s.srcLen ∧ readReg s .dstAddr = s.dstAddr ∧
    readReg s .dstCap = s.dstCap ∧ readReg s .dstLen = s.dstLen ∧
    readReg s .intEn = (if s.cie then 1 else 0) ∧ readReg s .intStat = (if s.cip then 1 else 0) ∧
    ∀ (off : BitVec 8) (bytes : Nat),
      ∃ t, hostOp (.busRead (s.platform.regBase + off.setWidth 32) bytes n) s = .next t ∧
        { t with host := s.host } = s ∧ t.host.prog = s.host.prog ∧ t.host.pc = s.host.pc ∧
        ∀ m : VarName, m ≠ n → getVar t.host.vars m = getVar s.host.vars m

/-- 10_state.md R36: a move of the host that is no 32-bit write to CMD or INT_STAT writes no flag, nor DST_LEN. -/
def Obligations.OnlyCmdAndIntStatWritesTouchFlags : Prop :=
  ∀ (op : HostOp) (s t : State), hostOp op s = .next t →
    (∀ w, op ≠ .busWrite (regAddress s.platform .cmd) 4 w) →
    (∀ w, op ≠ .busWrite (regAddress s.platform .intStat) 4 w) →
    t.eng = s.eng ∧ t.status = s.status ∧ t.dstLen = s.dstLen ∧ t.cip = s.cip ∧ t.cmd = s.cmd

/-! ### The host and the data memory -/

/-- 70_reset_and_hazards.md R305, every row: while a data command runs, a host write to the source or the destination window is
a fault, a host read of the destination window is a draw (any value: the free byte is not known), a read elsewhere is the
memory's byte, and a write outside both windows is a normal write. Where the windows themselves overlap (the command will end
with OVERLAP) the model takes the destination's row for a read (notes/assumptions/11.md). -/
def Obligations.WindowAccessesWhileBusy : Prop :=
  ∀ (s : State) (i : Instr) (a : Addr) (v : Byte) (n : VarName), Memory.wf s.mem → s.eng = .busy →
    decode s.cmd = .ok i → i ≠ .nop →
    (s.inSource a = true → ∃ f, hostOp (.memWrite a v) s = .fault f) ∧
    (s.inDestination a = true → ∃ f, hostOp (.memWrite a v) s = .fault f) ∧
    (s.inDestination a = true → ∃ t, hostOp (.memRead a n) s = .next t ∧ t.mem = s.mem ∧
      getVar t.host.vars n = (Config.freeByte s.draws).setWidth 32 ∧ t.draws = s.draws + 1) ∧
    (s.inDestination a = false → ∃ t, hostOp (.memRead a n) s = .next t ∧ { t with host := s.host } = s ∧
      getVar t.host.vars n = (s.mem.read a).setWidth 32) ∧
    (s.inSource a = false → s.inDestination a = false →
      ∃ t, hostOp (.memWrite a v) s = .next t ∧ { t with mem := s.mem } = s ∧ t.mem.read a = v ∧
        ∀ b, b ≠ a → t.mem.read b = s.mem.read b)

/-- 70_reset_and_hazards.md R305, 40_control.md R120: the machine stops exactly on a host write to a window of a running data
command, and it is never refused a step. -/
def Obligations.OnlyTheWindowHazardStopsTheMachine : Prop :=
  ∀ s : State, ((∃ f, step s = .fault f) ↔ HazardNext s) ∧ ∀ r, step s ≠ .refused r

/-! ### The whole machine -/

/-- 10_state.md R24 (invariants), R29, 70_reset_and_hazards.md R308: every step keeps the invariant. -/
def Obligations.EveryStepKeepsTheInvariant : Prop :=
  ∀ s t : State, MachineInv s → step s = .next t → MachineInv t

/-- 10_state.md R44: the state after reset meets the invariant. -/
def Obligations.ResetStateMeetsTheInvariant : Prop := MachineInv State.reset

/-- 10_state.md R44, 70_reset_and_hazards.md R300, R301: reset puts every register at its reset value and the engine at IDLE;
memory is unchanged, but for the destination window of a running command. -/
def Obligations.ResetRestoresTheRegisters : Prop :=
  ∀ s : State, nextTurn s = .reset → ∃ t, step s = .next t ∧
    readReg t .id = 0x44430007 ∧ t.cmd = 0 ∧ statusWord t = 0 ∧ t.eng = .idle ∧ t.srcAddr = 0 ∧ t.srcLen = 0 ∧
    t.dstAddr = 0 ∧ t.dstCap = 0 ∧ t.dstLen = 0 ∧ readReg t .intEn = 0 ∧ readReg t .intStat = 0 ∧ irq t = false ∧
    (s.eng = .idle → t.mem = s.mem) ∧ ∀ a : Addr, s.inDestination a = false → t.mem.read a = s.mem.read a

/-- 10_state.md R42: a command's result depends on its operands, the memory and the platform only, on nothing an earlier
command left: two states that agree on those complete alike. -/
def Obligations.ResultsDoNotDependOnEarlierCommands : Prop :=
  ∀ (i : Instr) (s₁ s₂ : State), s₁.srcAddr = s₂.srcAddr → s₁.srcLen = s₂.srcLen → s₁.dstAddr = s₂.dstAddr →
    s₁.dstCap = s₂.dstCap → s₁.mem = s₂.mem → s₁.platform = s₂.platform →
    ∃ t₁ t₂, exec i s₁ = .next t₁ ∧ exec i s₂ = .next t₂ ∧ t₁.dstLen = t₂.dstLen ∧
      t₁.status.err = t₂.status.err ∧ t₁.status.tail = t₂.status.tail ∧ t₁.status.errCode = t₂.status.errCode ∧
      (t₁.status.err = false → t₁.mem = t₂.mem)

/-- 60_exceptions.md R281, R282, 10_state.md R31: CIP becomes 1 only by a completion, and 0 only by a host write of 1 to bit 0
of INT_STAT or by reset. -/
def Obligations.PendingBitChangesOnlyByCompletionAcknowledgeOrReset : Prop :=
  ∀ s t : State, step s = .next t →
    (s.cip = false → t.cip = true →
      s.eng = .busy ∧ nextTurn s = .engine ∧ t.eng = .idle ∧ t.status.done = true) ∧
    (s.cip = true → t.cip = false → nextTurn s = .reset ∨ nextTurn s = .host ∧ ∃ w : Word, w.getLsbD 0 = true ∧
      s.host.prog[s.host.pc]? = some (.busWrite (regAddress s.platform .intStat) 4 w))

/-- 10_state.md R35, 40_control.md R120, R121, 70_reset_and_hazards.md R301: the engine becomes busy only by a host write to
CMD, and idle only by a completion or by reset. -/
def Obligations.EngineStateChangesOnlyByIssueCompletionOrReset : Prop :=
  ∀ s t : State, step s = .next t →
    (s.eng = .idle → t.eng = .busy → nextTurn s = .host ∧ ∃ w : Word, t.cmd = w ∧
      s.host.prog[s.host.pc]? = some (.busWrite (regAddress s.platform .cmd) 4 w)) ∧
    (s.eng = .busy → t.eng = .idle → nextTurn s = .reset ∨ nextTurn s = .engine ∧ t.status.done = true ∧ t.cip = true)

/-- 70_reset_and_hazards.md R312, 40_control.md R120: whatever finite list of turns comes first, without a reset among them, a
running command completes within one step more than the list has turns, unless the host commits the hazard of R305. The
schedule is the model's own (notes/assumptions/1.md). -/
def Obligations.RunningCommandCompletesUnderEverySchedule : Prop :=
  ∀ s : State, s.eng = .busy → Turn.reset ∉ s.turns →
    ∃ k, k ≤ s.turns.length + 1 ∧
      ((∃ f : Fault, Host.Core.run Sys2Proof.core k s = .fault f) ∨
        ∃ t : State, Host.Core.run Sys2Proof.core k s = .next t ∧ t.eng = .idle ∧ t.status.done = true)

/-! ### HUF-TREE -/

/-- 41_huffman_tree.md R140, R141: the table lists exactly the byte values that occur, ascending, with their counts; it is
empty exactly for the empty input, has at most 256 entries, and its counts sum to the input's length. -/
def Obligations.TableListsTheAlphabet : Prop :=
  ∀ src : List Byte,
    TableLegal (table (freqCount src)) ∧
    (∀ (b : Byte) (f : Nat), { sym := b, freq := f } ∈ table (freqCount src) ↔ f = src.count b ∧ b ∈ src) ∧
    (table (freqCount src) = [] ↔ src = []) ∧ (table (freqCount src)).length ≤ 256 ∧
    totalFreq (table (freqCount src)) = src.length

/-- 41_huffman_tree.md R143 to R146: the tree of a table is what the rule's loop of merges gives: always the two nodes of
smallest key, the first removed on the left. It has the table's entries as its leaves, one internal node less than leaves, and
each internal node has the sum of its children's frequencies and the sym of its leftmost leaf. -/
def Obligations.BuildTreeHasTheTableAsLeaves : Prop :=
  ∀ tbl : List Entry, tbl ≠ [] → ∃ root, buildTree tbl = some root ∧
    MergesTo (tbl.map fun e => .leaf e.sym e.freq) root ∧ root.leaves.Perm tbl ∧
    root.internalNodes + 1 = tbl.length ∧ root.Consistent

/-- 41_huffman_tree.md R147, R149: BuildTree is a function of the set of table entries alone: a table of distinct syms gives the
same tree in every order. -/
def Obligations.BuildTreeIgnoresTheOrderOfTheTable : Prop :=
  ∀ t₁ t₂ : List Entry, t₁.Perm t₂ → (t₁.map Entry.sym).Nodup → buildTree t₁ = buildTree t₂

/-- 41_huffman_tree.md R150 to R152: exactly the table's symbols have codes, each of 1 to n - 1 bits and at most 255, or of the
one bit "0" when n = 1. -/
def Obligations.CodesHaveBoundedLength : Prop :=
  ∀ (tbl : List Entry) (root : Tree), (tbl.map Entry.sym).Nodup → buildTree tbl = some root →
    (∀ b : Byte, (∃ code, codeOf (codes root) b = some code) ↔ b ∈ tbl.map Entry.sym) ∧
    (∀ b code, codeOf (codes root) b = some code → 1 ≤ code.length ∧ code.length ≤ max 1 (tbl.length - 1) ∧
      code.length ≤ 255) ∧
    (tbl.length = 1 → ∀ b code, codeOf (codes root) b = some code → code = [false])

/-- 41_huffman_tree.md R153: no code is a prefix of another, and for n ≥ 2 the Kraft sum is exactly 1 (both sides times 2^n),
for n = 1 it is 1/2 (both sides times 4). -/
def Obligations.CodesArePrefixFreeWithKraftSumOne : Prop :=
  ∀ (tbl : List Entry) (root : Tree), (tbl.map Entry.sym).Nodup → buildTree tbl = some root →
    (∀ x y cx cy, codeOf (codes root) x = some cx → codeOf (codes root) y = some cy → x ≠ y → ¬cx <+: cy) ∧
    (2 ≤ tbl.length →
      ((codes root).map fun p => 2 ^ (tbl.length - p.2.length)).sum = 2 ^ tbl.length) ∧
    (tbl.length = 1 → ((codes root).map fun p => 2 ^ (2 - p.2.length)).sum = 2)

/-- 41_huffman_tree.md R154: the bit stream's length is the sum of count times code length over the table, also the sum of the
code lengths over the input, at least L and at most 255 L, which is below 2^40 for every L that SRC_LEN can hold. -/
def Obligations.TotalBitCountIsTheWeightedCodeLength : Prop :=
  ∀ src : List Byte, src ≠ [] →
    (bitStream (codeTable src) src).length =
      ((table (freqCount src)).map fun e => e.freq * ((codeOf (codeTable src) e.sym).getD []).length).sum ∧
    (bitStream (codeTable src) src).length =
      (src.map fun b => ((codeOf (codeTable src) b).getD []).length).sum ∧
    src.length ≤ (bitStream (codeTable src) src).length ∧
    (bitStream (codeTable src) src).length ≤ 255 * src.length ∧
    (src.length < 2 ^ 32 → (bitStream (codeTable src) src).length < 2 ^ 40)

/-- 30_encoding.md R95: in the record of a byte value, the length byte is the code's length, bit q of the code is bit
7 - q mod 8 of code byte q div 8, and every other bit is 0; the record of a byte value without a code is 0. -/
def Obligations.CodeRecordHoldsLengthAndBits : Prop :=
  ∀ (code : Option Bits), (∀ bits, code = some bits → bits.length ≤ 255) →
    (codeRecord code).length = 33 ∧
    (codeRecord code)[0]?.map BitVec.toNat = some ((code.getD []).length) ∧
    ∀ q : Nat, q < 256 →
      (codeRecord code)[1 + q / 8]?.map (fun b => b.getLsbD (7 - q % 8)) = some ((code.getD []).getD q false)

/-! ### HUF-PACK -/

/-- 42_huffman_codec.md R184: bits are packed MSB first into ceil(T/8) bytes, and the bits after the last one are 0. -/
def Obligations.PackPlacesBitsMsbFirst : Prop :=
  ∀ bits : Bits,
    (pack bits).length = (bits.length + 7) / 8 ∧
    ∀ q : Nat, q < 8 * (pack bits).length →
      (pack bits)[q / 8]?.map (fun b => b.getLsbD (7 - q % 8)) = some (bits.getD q false)

/-- 30_encoding.md R93, R97, 42_huffman_codec.md R185: the bytes of a container HUF_ENC makes: usableBits, tableSize, the table
in ascending order with little-endian counts, and the payload. -/
def Obligations.ContainerLayout : Prop :=
  ∀ (src ct : List Byte) (dc : Nat), src ≠ [] → src.length < 2 ^ 32 → hufEncode src dc = .ok ct →
    (∃ u p, ct[0]? = some u ∧ 1 ≤ u.toNat ∧ u.toNat ≤ 8 ∧ 1 ≤ p ∧
      ct.length = 2 + 5 * (table (freqCount src)).length + p ∧
      (bitStream (codeTable src) src).length = 8 * (p - 1) + u.toNat) ∧
    ct[1]?.map BitVec.toNat = some ((table (freqCount src)).length % 256) ∧
    (∀ k e, (table (freqCount src))[k]? = some e →
      ct[2 + 5 * k]? = some e.sym ∧
      (ct.getD (3 + 5 * k) 0).toNat + 256 * (ct.getD (4 + 5 * k) 0).toNat + 65536 * (ct.getD (5 + 5 * k) 0).toNat +
        16777216 * (ct.getD (6 + 5 * k) 0).toNat = e.freq) ∧
    ct.drop (2 + 5 * (table (freqCount src)).length) = pack (bitStream (codeTable src) src)

/-- 42_huffman_codec.md R195: decoding an encoded input of at most 2^32 - 1 bytes gives it back, for every capacity that fits. -/
def Obligations.HuffmanRoundTrip : Prop :=
  ∀ b : List Byte, b.length < 2 ^ 32 →
    ∃ c, (∀ dc, c.length ≤ dc → hufEncode b dc = .ok c) ∧ ∀ dc', b.length ≤ dc' → hufDecode c dc' = .ok b

/-- 42_huffman_codec.md R191, R192, 30_encoding.md R96: the header checks in their order: too short; usableBits; too short for
its table; a table that is not strictly ascending or has a count 0; a frequency sum above DST_CAP. -/
def Obligations.HufDecHeaderChecksInOrder : Prop :=
  ∀ (u n : Byte) (dc : Nat),
    hufDecode [u] dc = .error .hufTruncated ∧
    (∀ rest, u.toNat = 0 ∨ 8 < u.toNat → hufDecode (u :: n :: rest) dc = .error .hufUsableBits) ∧
    (1 ≤ u.toNat → u.toNat ≤ 8 → ∀ rest : List Byte,
      rest.length < 5 * (if n.toNat = 0 then 256 else n.toNat) → hufDecode (u :: n :: rest) dc = .error .hufTruncated) ∧
    (1 ≤ u.toNat → u.toNat ≤ 8 → ∀ (tbl : List Entry) (pay : List Byte),
      tbl.length = (if n.toNat = 0 then 256 else n.toNat) → (∀ e ∈ tbl, e.freq < 2 ^ 32) →
      (¬TableLegal tbl → hufDecode (u :: n :: (tableBytes tbl ++ pay)) dc = .error .hufTable) ∧
      (TableLegal tbl → dc < (tbl.map Entry.freq).sum →
        hufDecode (u :: n :: (tableBytes tbl ++ pay)) dc = .error .dstOverflow))

/-- 42_huffman_codec.md R193, R194: the walk, on every container with a legal table whose counts sum to at most the capacity.
When the usable bits are the codes of exactly as many bytes as the counts sum to, it decodes to those bytes, whatever the count
of each one; bits left over after them, and bits missing from them, are HUF_LENGTH. With one symbol, whose code is the bit 0:
the symbol once per 0 bit when the usable bits are exactly as many zeros as the count; HUF_CORRUPT on a 1 bit before the last
symbol; else HUF_LENGTH. -/
def Obligations.HufDecWalksTheUsableBits : Prop :=
  (∀ (u n : Byte) (tbl : List Entry) (pay : List Byte) (dc : Nat) (root : Tree) (out : List Byte),
    1 ≤ u.toNat → u.toNat ≤ 8 → tbl.length = (if n.toNat = 0 then 256 else n.toNat) → (∀ e ∈ tbl, e.freq < 2 ^ 32) →
    TableLegal tbl → totalFreq tbl ≤ dc → buildTree tbl = some root →
    (∀ b ∈ out, b ∈ tbl.map Entry.sym) → out.length = totalFreq tbl →
    (payloadBits pay u.toNat = bitStream (codes root) out →
      hufDecode (u :: n :: (tableBytes tbl ++ pay)) dc = .ok out) ∧
    (∀ left, left ≠ [] → payloadBits pay u.toNat = bitStream (codes root) out ++ left →
      hufDecode (u :: n :: (tableBytes tbl ++ pay)) dc = .error .hufLength) ∧
    (∀ missing, missing ≠ [] → payloadBits pay u.toNat ++ missing = bitStream (codes root) out →
      hufDecode (u :: n :: (tableBytes tbl ++ pay)) dc = .error .hufLength)) ∧
  (∀ (u s : Byte) (f dc : Nat) (pay : List Byte), 1 ≤ u.toNat → u.toNat ≤ 8 → 1 ≤ f → f < 2 ^ 32 → f ≤ dc →
    ((∀ x ∈ payloadBits pay u.toNat, x = false) → (payloadBits pay u.toNat).length = f →
      hufDecode (u :: 1 :: s :: (le32 f ++ pay)) dc = .ok (List.replicate f s)) ∧
    (true ∈ (payloadBits pay u.toNat).take f →
      hufDecode (u :: 1 :: s :: (le32 f ++ pay)) dc = .error .hufCorrupt) ∧
    (true ∉ (payloadBits pay u.toNat).take f → (payloadBits pay u.toNat).length ≠ f →
      hufDecode (u :: 1 :: s :: (le32 f ++ pay)) dc = .error .hufLength))

/-- 42_huffman_codec.md R194: the 8 - u padding bits of the last payload byte are not checked. -/
def Obligations.HufDecIgnoresPaddingBits : Prop :=
  ∀ (u n : Byte) (rest : List Byte) (x y : Byte) (dc : Nat),
    5 * (if n.toNat = 0 then 256 else n.toNat) ≤ rest.length →
    (∀ k, k < u.toNat → k < 8 → x.getLsbD (7 - k) = y.getLsbD (7 - k)) →
    hufDecode (u :: n :: (rest ++ [x])) dc = hufDecode (u :: n :: (rest ++ [y])) dc

/-! ### LZ-MATCH -/

/-- 43_lz77_match.md R221: the model's search is the rule's double loop, at every position. -/
def Obligations.LongestMatchMeetsTheRule : Prop :=
  ∀ (src : List Byte) (i : Nat), i < src.length → longestMatchAt src i = longestMatchByRule src i

/-- 43_lz77_match.md R226: the bounds of a match. -/
def Obligations.LongestMatchBounds : Prop :=
  ∀ (src : List Byte) (i d l : Nat), i < src.length → longestMatchAt src i = (d, l) →
    l ≤ min 255 (src.length - 1 - i) ∧ (l = 0 ↔ d = 0) ∧ (1 ≤ l → 1 ≤ d ∧ d ≤ min 255 i) ∧
    ∀ m, m < l → src[i - d + m]? = src[i + m]?

/-- 43_lz77_match.md R227: no distance of the window has a longer match, and no smaller distance one as long. -/
def Obligations.LongestMatchIsMaximalAndNearest : Prop :=
  ∀ (src : List Byte) (i d l j k : Nat), i < src.length → longestMatchAt src i = (d, l) →
    1 ≤ j → j ≤ min 255 i → k ≤ 255 → i + k + 1 ≤ src.length → (∀ m, m < k → src[i - j + m]? = src[i + m]?) →
    k ≤ l ∧ (j < d → k ≠ l)

/-! ### LZ-TUPLE -/

/-- 44_lz77_tuple.md R240 to R242, 30_encoding.md R94: each tuple is the longest match at its position (the sum of the lengths
plus one of the tuples before it) and the byte after that match. The lengths plus one sum to the L bytes of the input, there
are 1 to L tuples (none for L = 0), the output has 3 bytes each, and a distance is 0 exactly when its length is. -/
def Obligations.TuplesCoverTheInput : Prop :=
  ∀ src : List Byte,
    (∀ before t later, lzTuples src = before ++ t :: later →
      (t.dist.toNat, t.len.toNat) = longestMatchAt src (tuplePosition before) ∧
      src[tuplePosition before + t.len.toNat]? = some t.lit) ∧
    tuplePosition (lzTuples src) = src.length ∧ (lzTuples src).length ≤ src.length ∧
    (src ≠ [] → 1 ≤ (lzTuples src).length) ∧
    ((lzTuples src).flatMap Tuple.bytes).length = 3 * (lzTuples src).length ∧
    ∀ t ∈ lzTuples src, (t.dist = 0 ↔ t.len = 0)

/-- 44_lz77_tuple.md R248: decoding an encoded input gives it back with TAIL 0, for every capacity that fits. -/
def Obligations.LzRoundTrip : Prop :=
  ∀ (b : List Byte) (dc dc' : Nat), 3 * (lzTuples b).length ≤ dc → b.length ≤ dc' →
    ∃ c, lzEncode b dc = .ok c ∧ lzDecode c dc' = .ok { bytes := b, tail := false }

/-- 44_lz77_tuple.md R243 to R247, R310 of 70_reset_and_hazards.md: the model's decoder is the rule's loop by position, with the copy
one byte at a time. -/
def Obligations.LzDecodeMeetsTheRule : Prop :=
  ∀ (c : List Byte) (dc : Nat), lzDecode c dc = lzDecodeByRule c dc c.length [] 0

/-- 44_lz77_tuple.md R246: one or two bytes after the last whole tuple are ignored and set TAIL; a stream of whole tuples has
TAIL 0. -/
def Obligations.TrailingBytesSetTail : Prop :=
  ∀ (c x : List Byte) (dc : Nat) (out : Output), c.length % 3 = 0 → x.length = 1 ∨ x.length = 2 →
    (lzDecode c dc = .ok out → out.tail = false ∧ lzDecode (c ++ x) dc = .ok { bytes := out.bytes, tail := true }) ∧
    (∀ e, lzDecode c dc = .error e → lzDecode (c ++ x) dc = .error e)

/-- 44_lz77_tuple.md R244, R247: after a stream that decodes to `out`, the next tuple fails with LZ_DISTANCE first, then with
DST_OVERFLOW, and else appends l bytes each equal to the one d before it, and its literal. -/
def Obligations.NextTupleIsCheckedThenCopied : Prop :=
  ∀ (c rest : List Byte) (d l ch : Byte) (dc : Nat) (out : Output), c.length % 3 = 0 → lzDecode c dc = .ok out →
    (0 < l.toNat ∧ (d.toNat = 0 ∨ out.bytes.length < d.toNat) →
      lzDecode (c ++ d :: l :: ch :: rest) dc = .error .lzDistance) ∧
    (¬(0 < l.toNat ∧ (d.toNat = 0 ∨ out.bytes.length < d.toNat)) → dc < out.bytes.length + l.toNat + 1 →
      lzDecode (c ++ d :: l :: ch :: rest) dc = .error .dstOverflow) ∧
    (¬(0 < l.toNat ∧ (d.toNat = 0 ∨ out.bytes.length < d.toNat)) → out.bytes.length + l.toNat + 1 ≤ dc →
      ∃ copied : List Byte, copied.length = l.toNat ∧
        lzDecode (c ++ [d, l, ch]) dc = .ok { bytes := out.bytes ++ copied ++ [ch], tail := false } ∧
        ∀ m, m < l.toNat →
          (out.bytes ++ copied)[out.bytes.length + m]? = (out.bytes ++ copied)[out.bytes.length + m - d.toNat]?)

/-! ### Host programs -/

/-- 30_encoding.md R101, R103: WR and RD of a register are one 32-bit transaction at REG_BASE plus its offset, MEM is one byte
write per byte at a, a + 1, ... of the data memory. Where these pass 2^32, R101 is silent, and that they go on at address 0 is
the model's choice (notes/assumptions/14.md). -/
def Obligations.StatementsAssembleToTheirTransactions : Prop :=
  ∀ (p : Platform) (prog : List HostStmt) (r : Reg) (w : Word) (n : VarName) (a : Addr) (bytes : List Byte),
    (HostStmt.wr r w).ops p prog = some [.busWrite (p.regBase + r.offset.setWidth 32) 4 w] ∧
    (HostStmt.rd r n).ops p prog = some [.busRead (p.regBase + r.offset.setWidth 32) 4 n] ∧
    (HostStmt.mem a bytes).ops p prog =
      some (bytes.mapIdx fun k b => HostOp.memWrite (a + BitVec.ofNat 32 k) b) ∧
    windowOffset p (p.regBase + r.offset.setWidth 32) = some r.offset ∧ regAt r.offset = some r
end

