-- ==== Sys2Proof/Laws/Huffman.lean ====
section
/-! SUPPORT. Laws of the Huffman helpers: byte order, packing, the alphabet, and the extraction of the smallest node. -/

namespace Sys2Proof.Machine

@[simp] theorem length_le32 (v : Nat) : (le32 v).length = 4 := rfl

/-- The four bytes of a 32-bit value give it back (spec/00_scope.md R8). -/
theorem rdle32_le32 {v : Nat} (h : v < 2 ^ 32) :
    rdle32 (BitVec.ofNat 8 v) (BitVec.ofNat 8 (v / 256)) (BitVec.ofNat 8 (v / 65536)) (BitVec.ofNat 8 (v / 16777216)) =
      v := by
  simp only [rdle32, BitVec.toNat_ofNat]
  omega

/-! ### Packing -/

theorem getLsbD_byteOfEight (b0 b1 b2 b3 b4 b5 b6 b7 : Bool) (k : Fin 8) :
    (byteOfBits [b0, b1, b2, b3, b4, b5, b6, b7]).getLsbD (7 - k) = [b0, b1, b2, b3, b4, b5, b6, b7].getD k false := by
  revert b0 b1 b2 b3 b4 b5 b6 b7 k
  decide

/-- Only the first eight bits count, absent ones as 0. -/
theorem byteOfBits_eq (bits : Bits) :
    byteOfBits bits = byteOfBits [bits.getD 0 false, bits.getD 1 false, bits.getD 2 false, bits.getD 3 false,
      bits.getD 4 false, bits.getD 5 false, bits.getD 6 false, bits.getD 7 false] := by
  simp [byteOfBits, List.range, List.range.loop]

/-- Bit 7 - k of a packed byte is the k-th bit (42_huffman_codec.md R184). -/
theorem getLsbD_byteOfBits (bits : Bits) {k : Nat} (h : k < 8) :
    (byteOfBits bits).getLsbD (7 - k) = bits.getD k false := by
  rw [byteOfBits_eq]
  have := getLsbD_byteOfEight (bits.getD 0 false) (bits.getD 1 false) (bits.getD 2 false) (bits.getD 3 false)
    (bits.getD 4 false) (bits.getD 5 false) (bits.getD 6 false) (bits.getD 7 false) ⟨k, h⟩
  rw [this]
  match k, h with
  | 0, _ | 1, _ | 2, _ | 3, _ | 4, _ | 5, _ | 6, _ | 7, _ => rfl

@[simp] theorem length_packInto (n : Nat) (bits : Bits) : (packInto n bits).length = n := by
  induction n generalizing bits with
  | zero => rfl
  | succ n ih => simp [packInto, ih]

/-- Bit q of a packed sequence is bit 7 - q mod 8 of byte q div 8 (42_huffman_codec.md R184). -/
theorem getLsbD_packInto (n : Nat) (bits : Bits) {q : Nat} (h : q < 8 * n) :
    (packInto n bits)[q / 8]?.map (fun b => b.getLsbD (7 - q % 8)) = some (bits.getD q false) := by
  induction n generalizing bits q with
  | zero => omega
  | succ n ih =>
    rw [packInto]
    by_cases hq : q < 8
    · have h0 : q / 8 = 0 := by omega
      have h1 : q % 8 = q := by omega
      simp only [h0, h1, List.getElem?_cons_zero, Option.map_some, getLsbD_byteOfBits bits hq]
    · have h0 : q / 8 = (q - 8) / 8 + 1 := by omega
      have h1 : q % 8 = (q - 8) % 8 := by omega
      have h2 : (bits.drop 8).getD (q - 8) false = bits.getD q false := by
        simp only [List.getD_eq_getElem?_getD, List.getElem?_drop]
        congr 2
        omega
      rw [h0, h1, List.getElem?_cons_succ, ih (bits.drop 8) (by omega), h2]

/-- A dump record is 33 bytes (30_encoding.md R95). -/
@[simp] theorem length_codeRecord (code : Option Bits) : (codeRecord code).length = 33 := by
  cases code <;> simp [codeRecord, Config.codeBytes]

/-! ### The alphabet -/

@[simp] theorem length_allBytes : allBytes.length = 256 := by simp [allBytes, Config.alphabet]

theorem mem_allBytes (b : Byte) : b ∈ allBytes := by
  simp only [allBytes, Config.alphabet, List.mem_map, List.mem_range]
  exact ⟨b.toNat, b.isLt, by simp⟩

/-! ### The smallest node -/

/-- Extracting the smallest node keeps the set of nodes (41_huffman_tree.md R144). -/
theorem extractMin_perm (t : Tree) (ts : List Tree) :
    ((extractMin t ts).1 :: (extractMin t ts).2).Perm (t :: ts) := by
  induction ts generalizing t with
  | nil => exact List.Perm.refl _
  | cons u us ih =>
    have h := ih u
    rw [extractMin]
    generalize extractMin u us = x at h
    obtain ⟨m, rest⟩ := x
    simp only at h ⊢
    split
    · exact (List.Perm.swap t m rest).trans (h.cons t)
    · exact h.cons t

theorem KeyLe.refl (x : Tree) : KeyLe x x := .inr ⟨rfl, Nat.le_refl _⟩

theorem KeyLe.trans {x y z : Tree} (hxy : KeyLe x y) (hyz : KeyLe y z) : KeyLe x z := by
  unfold KeyLe at *
  omega

/-- `keyLt` decides the strict key order of 41_huffman_tree.md R143. -/
theorem keyLt_eq_false_iff (x y : Tree) : keyLt x y = false ↔ KeyLe y x := by
  simp only [keyLt, KeyLe, Bool.or_eq_false_iff, Bool.and_eq_false_iff, decide_eq_false_iff_not, beq_eq_false_iff_ne]
  omega

theorem KeyLe.of_keyLt {x y : Tree} (h : keyLt x y = true) : KeyLe x y := by
  simp only [keyLt, Bool.or_eq_true, Bool.and_eq_true, decide_eq_true_eq, beq_iff_eq] at h
  unfold KeyLe
  omega

/-- The extracted node has a smallest key (41_huffman_tree.md R144). -/
theorem extractMin_least (t : Tree) (ts : List Tree) : ∀ x ∈ (extractMin t ts).2, KeyLe (extractMin t ts).1 x := by
  induction ts generalizing t with
  | nil => simp [extractMin]
  | cons u us ih =>
    have h := ih u
    rw [extractMin]
    generalize extractMin u us = y at h
    obtain ⟨m, rest⟩ := y
    simp only at h ⊢
    split
    · rename_i hlt
      simpa using ⟨KeyLe.of_keyLt hlt, h⟩
    · rename_i hlt
      have hle := (keyLt_eq_false_iff m t).mp (by simpa using hlt)
      simpa using ⟨hle, fun x hx => hle.trans (h x hx)⟩

theorem length_extractMin (t : Tree) (ts : List Tree) : (extractMin t ts).2.length = ts.length := by
  have := (extractMin_perm t ts).length_eq
  simpa using this

end Sys2Proof.Machine
end

