-- ==== Sys2Proof/Laws/Lz.lean ====
section
/-! SUPPORT. Laws of the LZ77 helpers: match lengths, the copy, and the tuple stream. -/

namespace Sys2Proof.Machine

/-- A match is at most as long as the limit (spec/43_lz77_match.md R226). -/
theorem matchLen_le_limit (f : Nat) (xs ys : List Byte) : matchLen f xs ys ≤ f := by
  induction f generalizing xs ys with
  | zero => simp [matchLen]
  | succ f ih =>
    match xs, ys with
    | [], _ => simp [matchLen]
    | _ :: _, [] => simp [matchLen]
    | _ :: _, [_] => simp [matchLen]
    | x :: xs, y :: y' :: ys =>
      rw [matchLen]
      split
      · have := ih xs (y' :: ys); omega
      · omega

/-- A match leaves the last byte for the literal (43_lz77_match.md R222). -/
theorem matchLen_lt_length (f : Nat) (xs : List Byte) {ys : List Byte} (h : ys ≠ []) :
    matchLen f xs ys < ys.length := by
  induction f generalizing xs ys with
  | zero => simpa [matchLen, List.length_pos_iff] using h
  | succ f ih =>
    match xs, ys, h with
    | [], y :: ys, _ => simp [matchLen]
    | _ :: _, [_], _ => simp [matchLen]
    | x :: xs, y :: y' :: ys, _ =>
      rw [matchLen]
      split
      · have := ih xs (ys := y' :: ys) (by simp); simp only [List.length_cons] at this ⊢; omega
      · simp

/-- The best match of a search is the one it began with, or one of its candidates. -/
theorem searchBack_invariant {P : Nat × Nat → Prop} (rest : List Byte) (ps cand : List Byte) (j : Nat) (best : Nat × Nat)
    (hbest : P best)
    (hstep : ∀ d cand', j < d → d ≤ j + ps.length → 0 < matchLen Config.maxMatch cand' rest →
      P (d, matchLen Config.maxMatch cand' rest)) : P (searchBack rest ps cand j best) := by
  induction ps generalizing cand j best with
  | nil => exact hbest
  | cons p ps ih =>
    rw [searchBack]
    refine ih _ _ _ ?_ fun d cand' h1 h2 h3 => hstep d cand' (by omega) (by simp only [List.length_cons]; omega) h3
    split
    · exact hstep _ _ (by omega) (by simp only [List.length_cons]; omega) (by omega)
    · exact hbest

@[simp] theorem tuplePosition_nil : tuplePosition [] = 0 := rfl

@[simp] theorem tuplePosition_cons (t : Tuple) (ts : List Tuple) :
    tuplePosition (t :: ts) = t.len.toNat + 1 + tuplePosition ts := by simp [tuplePosition]

/-- A copy appends as many bytes as the length says (44_lz77_tuple.md R244). -/
@[simp] theorem length_copyBack (d l : Nat) (rout : List Byte) : (copyBack d l rout).length = rout.length + l := by
  induction l generalizing rout with
  | zero => rfl
  | succ l ih => rw [copyBack, ih]; simp only [List.length_cons]; omega

/-- A tuple is three bytes (44_lz77_tuple.md R241). -/
theorem length_flatMap_bytes (ts : List Tuple) : (ts.flatMap Tuple.bytes).length = 3 * ts.length := by
  induction ts with
  | nil => rfl
  | cons t ts ih => simp only [List.flatMap_cons, List.length_append, ih, Tuple.bytes, List.length_cons, List.length_nil]; omega

end Sys2Proof.Machine
end

