-- ==== Sys2Proof/Laws/Memory.lean ====
section
/-! SUPPORT. The laws of the data memory: read after write, the canonical form, and equality. -/

namespace Sys2Proof.Machine

theorem Memory.wf_nil : Memory.wf [] := ⟨List.Pairwise.nil, by simp⟩

theorem Memory.wf_tail {c : Host.Cell} {m : Memory} (h : Memory.wf (c :: m)) : Memory.wf m :=
  ⟨(List.pairwise_cons.mp h.1).2, fun d hd => h.2 d (List.mem_cons_of_mem _ hd)⟩

theorem Memory.head_lt {c : Host.Cell} {m : Memory} (h : Memory.wf (c :: m)) : ∀ d ∈ m, c.1 < d.1 :=
  (List.pairwise_cons.mp h.1).1

/-- An address below every listed one reads as the power-on byte. -/
theorem Memory.read_below {m : Memory} {a : Addr} (h : ∀ d ∈ m, a.toNat < d.1) :
    Memory.read m a = Config.powerOnByte := by
  induction m with
  | nil => rfl
  | cons c m ih =>
    have hc := h c (by simp)
    rw [Memory.read, if_neg (by omega)]
    exact ih fun d hd => h d (by simp [hd])

/-- Every address listed after a write was listed before it, or is the address written. -/
theorem Memory.mem_write {m : Memory} {a : Addr} {v : Byte} {d : Host.Cell} (h : d ∈ Memory.write m a v) :
    d ∈ m ∨ (d = (a.toNat, v) ∧ v ≠ Config.powerOnByte) := by
  induction m with
  | nil =>
    rw [Memory.write] at h
    split at h <;> simp_all
  | cons c m ih =>
    obtain ⟨k, w⟩ := c
    simp only [Memory.write] at h
    split at h
    · rcases List.mem_cons.mp h with h | h
      · simp [h]
      · rcases ih h with h | h
        · simp [h]
        · exact .inr h
    · split at h <;> split at h <;> simp_all <;> tauto

/-- A write keeps the canonical form. -/
theorem Memory.wf_write {m : Memory} (h : Memory.wf m) (a : Addr) (v : Byte) : Memory.wf (Memory.write m a v) := by
  induction m with
  | nil =>
    rw [Memory.write]
    split
    · exact Memory.wf_nil
    · have : a.toNat < Config.addrSpace := a.isLt
      simp_all [Memory.wf]
  | cons c m ih =>
    obtain ⟨k, w⟩ := c
    have hlt := Memory.head_lt h
    have ht := Memory.wf_tail h
    have hk := h.2 (k, w) (by simp)
    have ha : a.toNat < Config.addrSpace := a.isLt
    simp only [Memory.write]
    split
    · next hka =>
      refine ⟨List.pairwise_cons.mpr ⟨fun d hd => ?_, (ih ht).1⟩, fun d hd => ?_⟩
      · rcases Memory.mem_write hd with hd | ⟨hd, -⟩
        · exact hlt d hd
        · simpa [hd] using hka
      · rcases List.mem_cons.mp hd with hd | hd
        · exact hd ▸ hk
        · exact (ih ht).2 d hd
    · next hka =>
      have hrest : ∀ d ∈ m, a.toNat < d.1 := fun d hd => by have := hlt d hd; simp only at this; omega
      by_cases hv : v = Config.powerOnByte <;> by_cases he : k = a.toNat <;> simp only [hv, he, if_true, if_false]
      · exact ht
      · exact h
      · refine ⟨List.pairwise_cons.mpr ⟨hrest, ht.1⟩, ?_⟩
        simp only [List.mem_cons, forall_eq_or_imp]
        exact ⟨⟨hv, ha⟩, ht.2⟩
      · refine ⟨List.pairwise_cons.mpr ⟨?_, h.1⟩, ?_⟩
        · simp only [List.mem_cons, forall_eq_or_imp]
          exact ⟨by omega, hrest⟩
        · simp only [List.mem_cons, forall_eq_or_imp]
          exact ⟨⟨hv, ha⟩, hk, ht.2⟩

/-- A byte written reads back. -/
theorem Memory.read_write_same {m : Memory} (h : Memory.wf m) (a : Addr) (v : Byte) :
    Memory.read (Memory.write m a v) a = v := by
  induction m with
  | nil => rw [Memory.write]; split <;> simp_all [Memory.read]
  | cons c m ih =>
    obtain ⟨k, w⟩ := c
    have hlt := Memory.head_lt h
    simp only [Memory.write]
    split
    · next hka => rw [Memory.read, if_neg (by omega)]; exact ih (Memory.wf_tail h)
    · next hka =>
      have hrest : ∀ d ∈ m, a.toNat < d.1 := fun d hd => by have := hlt d hd; simp only at this; omega
      by_cases hv : v = Config.powerOnByte <;> by_cases he : k = a.toNat <;> simp only [hv, he, if_true, if_false]
      · exact Memory.read_below hrest
      · rw [Memory.read, if_neg he]; exact Memory.read_below hrest
      · simp [Memory.read]
      · simp [Memory.read]

/-- A write leaves every other byte alone. -/
theorem Memory.read_write_other {m : Memory} {a b : Addr} (v : Byte) (hab : a ≠ b) :
    Memory.read (Memory.write m a v) b = Memory.read m b := by
  have hne : a.toNat ≠ b.toNat := fun e => hab (BitVec.eq_of_toNat_eq e)
  induction m with
  | nil => rw [Memory.write]; split <;> simp_all [Memory.read]
  | cons c m ih =>
    obtain ⟨k, w⟩ := c
    simp only [Memory.write]
    split
    · simp only [Memory.read, ih]
    · split <;> split <;> simp_all [Memory.read]

/-- Consecutive writes keep the canonical form. -/
theorem Memory.wf_writeBytes {m : Memory} (h : Memory.wf m) (a : Addr) (bs : List Byte) :
    Memory.wf (Memory.writeBytes m a bs) := by
  induction bs generalizing m a with
  | nil => exact h
  | cons b bs ih => exact ih (Memory.wf_write h a b) (a + 1)

theorem addr_add_one_toNat {a : Addr} (h : a.toNat + 1 < Config.addrSpace) : (a + 1).toNat = a.toNat + 1 := by
  simp only [Config.addrSpace] at h
  rw [BitVec.toNat_add]
  simp
  omega

/-- Consecutive writes leave every byte outside them alone. -/
theorem Memory.read_writeBytes_outside {m : Memory} {a b : Addr} {bs : List Byte}
    (hr : a.toNat + bs.length ≤ Config.addrSpace) (h : b.toNat < a.toNat ∨ a.toNat + bs.length ≤ b.toNat) :
    Memory.read (Memory.writeBytes m a bs) b = Memory.read m b := by
  induction bs generalizing m a with
  | nil => rfl
  | cons v bs ih =>
    simp only [List.length_cons] at hr h
    have hab : a ≠ b := fun e => by subst e; omega
    rw [Memory.writeBytes]
    by_cases hbs : bs = []
    · subst hbs; exact Memory.read_write_other v hab
    · have hpos := List.length_pos_iff.mpr hbs
      have hn : (a + 1).toNat = a.toNat + 1 := addr_add_one_toNat (by omega)
      rw [ih (by omega) (by omega), Memory.read_write_other v hab]

/-- Consecutive writes read back, byte for byte. -/
theorem Memory.readBytes_writeBytes {m : Memory} (h : Memory.wf m) {a : Addr} {bs : List Byte}
    (hr : a.toNat + bs.length ≤ Config.addrSpace) :
    Memory.readBytes (Memory.writeBytes m a bs) a bs.length = bs := by
  induction bs generalizing m a with
  | nil => rfl
  | cons v bs ih =>
    simp only [List.length_cons] at hr
    rw [Memory.writeBytes, List.length_cons, Memory.readBytes]
    by_cases hbs : bs = []
    · subst hbs; simp [Memory.writeBytes, Memory.readBytes, Memory.read_write_same h]
    · have hpos := List.length_pos_iff.mpr hbs
      have hn : (a + 1).toNat = a.toNat + 1 := addr_add_one_toNat (by omega)
      rw [ih (Memory.wf_write h a v) (by omega),
        Memory.read_writeBytes_outside (by omega) (by omega), Memory.read_write_same h]

@[simp] theorem Memory.length_readBytes (m : Memory) (a : Addr) (n : Nat) : (Memory.readBytes m a n).length = n := by
  induction n generalizing a with
  | zero => rfl
  | succ n ih => simp [Memory.readBytes, ih]

/-- The `p`-th byte of consecutive bytes read from `a`. -/
theorem Memory.getElem?_readBytes (m : Memory) (a : Addr) {n p : Nat} (h : p < n) :
    (Memory.readBytes m a n)[p]? = some (Memory.read m (a + BitVec.ofNat 32 p)) := by
  induction n generalizing a p with
  | zero => omega
  | succ n ih =>
    cases p with
    | zero => simp [Memory.readBytes]
    | succ p =>
      rw [Memory.readBytes, List.getElem?_cons_succ, ih (a + 1) (by omega), BitVec.add_assoc]
      congr 3
      apply BitVec.eq_of_toNat_eq
      simp [Nat.add_comm]

theorem toNat_ofNat_addr {k : Nat} (h : k < Config.addrSpace) : (BitVec.ofNat 32 k).toNat = k := by
  simp only [Config.addrSpace] at h
  simp only [BitVec.toNat_ofNat]
  omega

/-- Memories in canonical form that read alike are the same list. -/
theorem Memory.ext_read {m n : Memory} (hm : Memory.wf m) (hn : Memory.wf n)
    (h : ∀ a, Memory.read m a = Memory.read n a) : m = n := by
  induction m generalizing n with
  | nil =>
    cases n with
    | nil => rfl
    | cons c n =>
      have hc := hn.2 c (by simp)
      have := h (BitVec.ofNat 32 c.1)
      rw [Memory.read, Memory.read, if_pos (toNat_ofNat_addr hc.2).symm] at this
      exact absurd this.symm hc.1
  | cons c m ih =>
    obtain ⟨k, v⟩ := c
    have hc := hm.2 (k, v) (by simp)
    have hk : (BitVec.ofNat 32 k).toNat = k := toNat_ofNat_addr hc.2
    cases n with
    | nil =>
      have := h (BitVec.ofNat 32 k)
      rw [Memory.read, Memory.read, if_pos hk.symm] at this
      exact absurd this hc.1
    | cons d n =>
      obtain ⟨k', v'⟩ := d
      have hd := hn.2 (k', v') (by simp)
      have hk' : (BitVec.ofNat 32 k').toNat = k' := toNat_ofNat_addr hd.2
      have hkk : k = k' := by
        rcases Nat.lt_trichotomy k k' with hl | he | hl
        · have := h (BitVec.ofNat 32 k)
          rw [Memory.read, if_pos hk.symm, Memory.read, if_neg (by omega), Memory.read_below] at this
          · exact absurd this hc.1
          · intro e he; have := Memory.head_lt hn e he; simp only at this; omega
        · exact he
        · have := h (BitVec.ofNat 32 k')
          rw [Memory.read, if_neg (by omega), Memory.read_below, Memory.read, if_pos hk'.symm] at this
          · exact absurd this.symm hd.1
          · intro e he; have := Memory.head_lt hm e he; simp only at this; omega
      subst hkk
      have hv : v = v' := by
        have := h (BitVec.ofNat 32 k)
        rwa [Memory.read, if_pos hk.symm, Memory.read, if_pos hk.symm] at this
      subst hv
      congr 1
      refine ih (Memory.wf_tail hm) (Memory.wf_tail hn) fun a => ?_
      by_cases ha : k = a.toNat
      · rw [Memory.read_below, Memory.read_below]
        · intro e he; have := Memory.head_lt hn e he; simp only at this; omega
        · intro e he; have := Memory.head_lt hm e he; simp only at this; omega
      · simpa [Memory.read, ha] using h a

end Sys2Proof.Machine
end

