-- ==== Sys2Proof/Laws/State.lean ====
section
/-! SUPPORT. What each update of the state does to each field: one lemma per field per update. -/

namespace Sys2Proof.Machine

/-! ### accept -/

@[simp] theorem accept_cmd (w : Word) (s : State) : (accept w s).cmd = w := rfl
@[simp] theorem accept_eng (w : Word) (s : State) : (accept w s).eng = .busy := rfl
@[simp] theorem accept_status (w : Word) (s : State) : (accept w s).status = Status.reset := rfl
@[simp] theorem accept_srcAddr (w : Word) (s : State) : (accept w s).srcAddr = s.srcAddr := rfl
@[simp] theorem accept_srcLen (w : Word) (s : State) : (accept w s).srcLen = s.srcLen := rfl
@[simp] theorem accept_dstAddr (w : Word) (s : State) : (accept w s).dstAddr = s.dstAddr := rfl
@[simp] theorem accept_dstCap (w : Word) (s : State) : (accept w s).dstCap = s.dstCap := rfl
@[simp] theorem accept_dstLen (w : Word) (s : State) : (accept w s).dstLen = 0 := rfl
@[simp] theorem accept_cie (w : Word) (s : State) : (accept w s).cie = s.cie := rfl
@[simp] theorem accept_cip (w : Word) (s : State) : (accept w s).cip = s.cip := rfl
@[simp] theorem accept_mem (w : Word) (s : State) : (accept w s).mem = s.mem := rfl
@[simp] theorem accept_draws (w : Word) (s : State) : (accept w s).draws = s.draws := rfl
@[simp] theorem accept_platform (w : Word) (s : State) : (accept w s).platform = s.platform := rfl
@[simp] theorem accept_host (w : Word) (s : State) : (accept w s).host = s.host := rfl
@[simp] theorem accept_turns (w : Word) (s : State) : (accept w s).turns = s.turns := rfl

/-! ### loseCommand -/

@[simp] theorem loseCommand_cmd (s : State) : (loseCommand s).cmd = s.cmd := rfl
@[simp] theorem loseCommand_eng (s : State) : (loseCommand s).eng = s.eng := rfl
@[simp] theorem loseCommand_status (s : State) : (loseCommand s).status = s.status.lost := rfl
@[simp] theorem loseCommand_srcAddr (s : State) : (loseCommand s).srcAddr = s.srcAddr := rfl
@[simp] theorem loseCommand_srcLen (s : State) : (loseCommand s).srcLen = s.srcLen := rfl
@[simp] theorem loseCommand_dstAddr (s : State) : (loseCommand s).dstAddr = s.dstAddr := rfl
@[simp] theorem loseCommand_dstCap (s : State) : (loseCommand s).dstCap = s.dstCap := rfl
@[simp] theorem loseCommand_dstLen (s : State) : (loseCommand s).dstLen = s.dstLen := rfl
@[simp] theorem loseCommand_cie (s : State) : (loseCommand s).cie = s.cie := rfl
@[simp] theorem loseCommand_cip (s : State) : (loseCommand s).cip = s.cip := rfl
@[simp] theorem loseCommand_mem (s : State) : (loseCommand s).mem = s.mem := rfl
@[simp] theorem loseCommand_draws (s : State) : (loseCommand s).draws = s.draws := rfl
@[simp] theorem loseCommand_platform (s : State) : (loseCommand s).platform = s.platform := rfl
@[simp] theorem loseCommand_host (s : State) : (loseCommand s).host = s.host := rfl
@[simp] theorem loseCommand_turns (s : State) : (loseCommand s).turns = s.turns := rfl

/-! ### completeOk -/

@[simp] theorem completeOk_cmd (s : State) (r : Performed) : (completeOk s r).cmd = s.cmd := rfl
@[simp] theorem completeOk_eng (s : State) (r : Performed) : (completeOk s r).eng = .idle := rfl
@[simp] theorem completeOk_status (s : State) (r : Performed) : (completeOk s r).status = s.status.completedOk r.out.tail := rfl
@[simp] theorem completeOk_srcAddr (s : State) (r : Performed) : (completeOk s r).srcAddr = s.srcAddr := rfl
@[simp] theorem completeOk_srcLen (s : State) (r : Performed) : (completeOk s r).srcLen = s.srcLen := rfl
@[simp] theorem completeOk_dstAddr (s : State) (r : Performed) : (completeOk s r).dstAddr = s.dstAddr := rfl
@[simp] theorem completeOk_dstCap (s : State) (r : Performed) : (completeOk s r).dstCap = s.dstCap := rfl
@[simp] theorem completeOk_dstLen (s : State) (r : Performed) : (completeOk s r).dstLen = BitVec.ofNat 32 r.out.bytes.length := rfl
@[simp] theorem completeOk_cie (s : State) (r : Performed) : (completeOk s r).cie = s.cie := rfl
@[simp] theorem completeOk_cip (s : State) (r : Performed) : (completeOk s r).cip = true := rfl
@[simp] theorem completeOk_mem (s : State) (r : Performed) : (completeOk s r).mem = r.mem := rfl
@[simp] theorem completeOk_draws (s : State) (r : Performed) : (completeOk s r).draws = s.draws := rfl
@[simp] theorem completeOk_platform (s : State) (r : Performed) : (completeOk s r).platform = s.platform := rfl
@[simp] theorem completeOk_host (s : State) (r : Performed) : (completeOk s r).host = s.host := rfl
@[simp] theorem completeOk_turns (s : State) (r : Performed) : (completeOk s r).turns = s.turns := rfl

/-! ### acknowledge -/

@[simp] theorem acknowledge_cmd (s : State) : (acknowledge s).cmd = s.cmd := rfl
@[simp] theorem acknowledge_eng (s : State) : (acknowledge s).eng = s.eng := rfl
@[simp] theorem acknowledge_status (s : State) : (acknowledge s).status = s.status := rfl
@[simp] theorem acknowledge_srcAddr (s : State) : (acknowledge s).srcAddr = s.srcAddr := rfl
@[simp] theorem acknowledge_srcLen (s : State) : (acknowledge s).srcLen = s.srcLen := rfl
@[simp] theorem acknowledge_dstAddr (s : State) : (acknowledge s).dstAddr = s.dstAddr := rfl
@[simp] theorem acknowledge_dstCap (s : State) : (acknowledge s).dstCap = s.dstCap := rfl
@[simp] theorem acknowledge_dstLen (s : State) : (acknowledge s).dstLen = s.dstLen := rfl
@[simp] theorem acknowledge_cie (s : State) : (acknowledge s).cie = s.cie := rfl
@[simp] theorem acknowledge_cip (s : State) : (acknowledge s).cip = false := rfl
@[simp] theorem acknowledge_mem (s : State) : (acknowledge s).mem = s.mem := rfl
@[simp] theorem acknowledge_draws (s : State) : (acknowledge s).draws = s.draws := rfl
@[simp] theorem acknowledge_platform (s : State) : (acknowledge s).platform = s.platform := rfl
@[simp] theorem acknowledge_host (s : State) : (acknowledge s).host = s.host := rfl
@[simp] theorem acknowledge_turns (s : State) : (acknowledge s).turns = s.turns := rfl

/-! ### State.drawDestination -/

@[simp] theorem State.drawDestination_cmd (s : State) : (State.drawDestination s).cmd = s.cmd := rfl
@[simp] theorem State.drawDestination_eng (s : State) : (State.drawDestination s).eng = s.eng := rfl
@[simp] theorem State.drawDestination_status (s : State) : (State.drawDestination s).status = s.status := rfl
@[simp] theorem State.drawDestination_srcAddr (s : State) : (State.drawDestination s).srcAddr = s.srcAddr := rfl
@[simp] theorem State.drawDestination_srcLen (s : State) : (State.drawDestination s).srcLen = s.srcLen := rfl
@[simp] theorem State.drawDestination_dstAddr (s : State) : (State.drawDestination s).dstAddr = s.dstAddr := rfl
@[simp] theorem State.drawDestination_dstCap (s : State) : (State.drawDestination s).dstCap = s.dstCap := rfl
@[simp] theorem State.drawDestination_dstLen (s : State) : (State.drawDestination s).dstLen = s.dstLen := rfl
@[simp] theorem State.drawDestination_cie (s : State) : (State.drawDestination s).cie = s.cie := rfl
@[simp] theorem State.drawDestination_cip (s : State) : (State.drawDestination s).cip = s.cip := rfl
@[simp] theorem State.drawDestination_mem (s : State) : (State.drawDestination s).mem = s.mem.writeBytes s.dstAddr (freeBytes s.draws s.destinationSize) := rfl
@[simp] theorem State.drawDestination_draws (s : State) : (State.drawDestination s).draws = s.draws + s.destinationSize := rfl
@[simp] theorem State.drawDestination_platform (s : State) : (State.drawDestination s).platform = s.platform := rfl
@[simp] theorem State.drawDestination_host (s : State) : (State.drawDestination s).host = s.host := rfl
@[simp] theorem State.drawDestination_turns (s : State) : (State.drawDestination s).turns = s.turns := rfl

/-! ### resetRegisters -/

@[simp] theorem resetRegisters_cmd (s : State) : (resetRegisters s).cmd = 0 := rfl
@[simp] theorem resetRegisters_eng (s : State) : (resetRegisters s).eng = .idle := rfl
@[simp] theorem resetRegisters_status (s : State) : (resetRegisters s).status = Status.reset := rfl
@[simp] theorem resetRegisters_srcAddr (s : State) : (resetRegisters s).srcAddr = 0 := rfl
@[simp] theorem resetRegisters_srcLen (s : State) : (resetRegisters s).srcLen = 0 := rfl
@[simp] theorem resetRegisters_dstAddr (s : State) : (resetRegisters s).dstAddr = 0 := rfl
@[simp] theorem resetRegisters_dstCap (s : State) : (resetRegisters s).dstCap = 0 := rfl
@[simp] theorem resetRegisters_dstLen (s : State) : (resetRegisters s).dstLen = 0 := rfl
@[simp] theorem resetRegisters_cie (s : State) : (resetRegisters s).cie = false := rfl
@[simp] theorem resetRegisters_cip (s : State) : (resetRegisters s).cip = false := rfl
@[simp] theorem resetRegisters_mem (s : State) : (resetRegisters s).mem = s.mem := rfl
@[simp] theorem resetRegisters_draws (s : State) : (resetRegisters s).draws = s.draws := rfl
@[simp] theorem resetRegisters_platform (s : State) : (resetRegisters s).platform = s.platform := rfl
@[simp] theorem resetRegisters_host (s : State) : (resetRegisters s).host = s.host := rfl
@[simp] theorem resetRegisters_turns (s : State) : (resetRegisters s).turns = s.turns := rfl

/-! ### State.keep -/

@[simp] theorem State.keep_cmd (s : State) (n : VarName) (w : Word) : (State.keep s n w).cmd = s.cmd := rfl
@[simp] theorem State.keep_eng (s : State) (n : VarName) (w : Word) : (State.keep s n w).eng = s.eng := rfl
@[simp] theorem State.keep_status (s : State) (n : VarName) (w : Word) : (State.keep s n w).status = s.status := rfl
@[simp] theorem State.keep_srcAddr (s : State) (n : VarName) (w : Word) : (State.keep s n w).srcAddr = s.srcAddr := rfl
@[simp] theorem State.keep_srcLen (s : State) (n : VarName) (w : Word) : (State.keep s n w).srcLen = s.srcLen := rfl
@[simp] theorem State.keep_dstAddr (s : State) (n : VarName) (w : Word) : (State.keep s n w).dstAddr = s.dstAddr := rfl
@[simp] theorem State.keep_dstCap (s : State) (n : VarName) (w : Word) : (State.keep s n w).dstCap = s.dstCap := rfl
@[simp] theorem State.keep_dstLen (s : State) (n : VarName) (w : Word) : (State.keep s n w).dstLen = s.dstLen := rfl
@[simp] theorem State.keep_cie (s : State) (n : VarName) (w : Word) : (State.keep s n w).cie = s.cie := rfl
@[simp] theorem State.keep_cip (s : State) (n : VarName) (w : Word) : (State.keep s n w).cip = s.cip := rfl
@[simp] theorem State.keep_mem (s : State) (n : VarName) (w : Word) : (State.keep s n w).mem = s.mem := rfl
@[simp] theorem State.keep_draws (s : State) (n : VarName) (w : Word) : (State.keep s n w).draws = s.draws := rfl
@[simp] theorem State.keep_platform (s : State) (n : VarName) (w : Word) : (State.keep s n w).platform = s.platform := rfl
@[simp] theorem State.keep_host (s : State) (n : VarName) (w : Word) : (State.keep s n w).host = { s.host with vars := setVar s.host.vars n w } := rfl
@[simp] theorem State.keep_turns (s : State) (n : VarName) (w : Word) : (State.keep s n w).turns = s.turns := rfl

/-! ### State.goTo -/

@[simp] theorem State.goTo_cmd (s : State) (pc : Nat) : (State.goTo s pc).cmd = s.cmd := rfl
@[simp] theorem State.goTo_eng (s : State) (pc : Nat) : (State.goTo s pc).eng = s.eng := rfl
@[simp] theorem State.goTo_status (s : State) (pc : Nat) : (State.goTo s pc).status = s.status := rfl
@[simp] theorem State.goTo_srcAddr (s : State) (pc : Nat) : (State.goTo s pc).srcAddr = s.srcAddr := rfl
@[simp] theorem State.goTo_srcLen (s : State) (pc : Nat) : (State.goTo s pc).srcLen = s.srcLen := rfl
@[simp] theorem State.goTo_dstAddr (s : State) (pc : Nat) : (State.goTo s pc).dstAddr = s.dstAddr := rfl
@[simp] theorem State.goTo_dstCap (s : State) (pc : Nat) : (State.goTo s pc).dstCap = s.dstCap := rfl
@[simp] theorem State.goTo_dstLen (s : State) (pc : Nat) : (State.goTo s pc).dstLen = s.dstLen := rfl
@[simp] theorem State.goTo_cie (s : State) (pc : Nat) : (State.goTo s pc).cie = s.cie := rfl
@[simp] theorem State.goTo_cip (s : State) (pc : Nat) : (State.goTo s pc).cip = s.cip := rfl
@[simp] theorem State.goTo_mem (s : State) (pc : Nat) : (State.goTo s pc).mem = s.mem := rfl
@[simp] theorem State.goTo_draws (s : State) (pc : Nat) : (State.goTo s pc).draws = s.draws := rfl
@[simp] theorem State.goTo_platform (s : State) (pc : Nat) : (State.goTo s pc).platform = s.platform := rfl
@[simp] theorem State.goTo_host (s : State) (pc : Nat) : (State.goTo s pc).host = { s.host with pc := pc } := rfl
@[simp] theorem State.goTo_turns (s : State) (pc : Nat) : (State.goTo s pc).turns = s.turns := rfl

/-! ### popTurn -/

@[simp] theorem popTurn_cmd (s : State) : (popTurn s).cmd = s.cmd := rfl
@[simp] theorem popTurn_eng (s : State) : (popTurn s).eng = s.eng := rfl
@[simp] theorem popTurn_status (s : State) : (popTurn s).status = s.status := rfl
@[simp] theorem popTurn_srcAddr (s : State) : (popTurn s).srcAddr = s.srcAddr := rfl
@[simp] theorem popTurn_srcLen (s : State) : (popTurn s).srcLen = s.srcLen := rfl
@[simp] theorem popTurn_dstAddr (s : State) : (popTurn s).dstAddr = s.dstAddr := rfl
@[simp] theorem popTurn_dstCap (s : State) : (popTurn s).dstCap = s.dstCap := rfl
@[simp] theorem popTurn_dstLen (s : State) : (popTurn s).dstLen = s.dstLen := rfl
@[simp] theorem popTurn_cie (s : State) : (popTurn s).cie = s.cie := rfl
@[simp] theorem popTurn_cip (s : State) : (popTurn s).cip = s.cip := rfl
@[simp] theorem popTurn_mem (s : State) : (popTurn s).mem = s.mem := rfl
@[simp] theorem popTurn_draws (s : State) : (popTurn s).draws = s.draws := rfl
@[simp] theorem popTurn_platform (s : State) : (popTurn s).platform = s.platform := rfl
@[simp] theorem popTurn_host (s : State) : (popTurn s).host = s.host := rfl
@[simp] theorem popTurn_turns (s : State) : (popTurn s).turns = s.turns.tail := rfl

/-! ### issueWord -/

@[simp] theorem issueWord_cmd (w : Word) (s : State) : (issueWord w s).cmd = w := rfl
@[simp] theorem issueWord_eng (w : Word) (s : State) : (issueWord w s).eng = .busy := rfl
@[simp] theorem issueWord_status (w : Word) (s : State) : (issueWord w s).status = Status.reset := rfl
@[simp] theorem issueWord_srcAddr (w : Word) (s : State) : (issueWord w s).srcAddr = s.srcAddr := rfl
@[simp] theorem issueWord_srcLen (w : Word) (s : State) : (issueWord w s).srcLen = s.srcLen := rfl
@[simp] theorem issueWord_dstAddr (w : Word) (s : State) : (issueWord w s).dstAddr = s.dstAddr := rfl
@[simp] theorem issueWord_dstCap (w : Word) (s : State) : (issueWord w s).dstCap = s.dstCap := rfl
@[simp] theorem issueWord_dstLen (w : Word) (s : State) : (issueWord w s).dstLen = 0 := rfl
@[simp] theorem issueWord_cie (w : Word) (s : State) : (issueWord w s).cie = s.cie := rfl
@[simp] theorem issueWord_cip (w : Word) (s : State) : (issueWord w s).cip = s.cip := rfl
@[simp] theorem issueWord_mem (w : Word) (s : State) : (issueWord w s).mem = s.mem := rfl
@[simp] theorem issueWord_draws (w : Word) (s : State) : (issueWord w s).draws = s.draws := rfl
@[simp] theorem issueWord_platform (w : Word) (s : State) : (issueWord w s).platform = s.platform := rfl
@[simp] theorem issueWord_host (w : Word) (s : State) : (issueWord w s).host = s.host := rfl
@[simp] theorem issueWord_turns (w : Word) (s : State) : (issueWord w s).turns = .engine :: s.turns := rfl

/-! ### State.withHostProgram -/

@[simp] theorem State.withHostProgram_cmd (s : State) (ops : List HostOp) : (State.withHostProgram s ops).cmd = s.cmd := rfl
@[simp] theorem State.withHostProgram_eng (s : State) (ops : List HostOp) : (State.withHostProgram s ops).eng = s.eng := rfl
@[simp] theorem State.withHostProgram_status (s : State) (ops : List HostOp) : (State.withHostProgram s ops).status = s.status := rfl
@[simp] theorem State.withHostProgram_srcAddr (s : State) (ops : List HostOp) : (State.withHostProgram s ops).srcAddr = s.srcAddr := rfl
@[simp] theorem State.withHostProgram_srcLen (s : State) (ops : List HostOp) : (State.withHostProgram s ops).srcLen = s.srcLen := rfl
@[simp] theorem State.withHostProgram_dstAddr (s : State) (ops : List HostOp) : (State.withHostProgram s ops).dstAddr = s.dstAddr := rfl
@[simp] theorem State.withHostProgram_dstCap (s : State) (ops : List HostOp) : (State.withHostProgram s ops).dstCap = s.dstCap := rfl
@[simp] theorem State.withHostProgram_dstLen (s : State) (ops : List HostOp) : (State.withHostProgram s ops).dstLen = s.dstLen := rfl
@[simp] theorem State.withHostProgram_cie (s : State) (ops : List HostOp) : (State.withHostProgram s ops).cie = s.cie := rfl
@[simp] theorem State.withHostProgram_cip (s : State) (ops : List HostOp) : (State.withHostProgram s ops).cip = s.cip := rfl
@[simp] theorem State.withHostProgram_mem (s : State) (ops : List HostOp) : (State.withHostProgram s ops).mem = s.mem := rfl
@[simp] theorem State.withHostProgram_draws (s : State) (ops : List HostOp) : (State.withHostProgram s ops).draws = s.draws := rfl
@[simp] theorem State.withHostProgram_platform (s : State) (ops : List HostOp) : (State.withHostProgram s ops).platform = s.platform := rfl
@[simp] theorem State.withHostProgram_host (s : State) (ops : List HostOp) : (State.withHostProgram s ops).host = { prog := ops, pc := 0, vars := [] } := rfl
@[simp] theorem State.withHostProgram_turns (s : State) (ops : List HostOp) : (State.withHostProgram s ops).turns = s.turns := rfl

/-! ### completeErr -/

@[simp] theorem completeErr_cmd (s : State) (c : ErrCode) : (completeErr s c).cmd = s.cmd := by
  unfold completeErr; cases c.beforeMemory <;> rfl
@[simp] theorem completeErr_eng (s : State) (c : ErrCode) : (completeErr s c).eng = .idle := rfl
@[simp] theorem completeErr_status (s : State) (c : ErrCode) : (completeErr s c).status = s.status.completedErr c := rfl
@[simp] theorem completeErr_srcAddr (s : State) (c : ErrCode) : (completeErr s c).srcAddr = s.srcAddr := by
  unfold completeErr; cases c.beforeMemory <;> rfl
@[simp] theorem completeErr_srcLen (s : State) (c : ErrCode) : (completeErr s c).srcLen = s.srcLen := by
  unfold completeErr; cases c.beforeMemory <;> rfl
@[simp] theorem completeErr_dstAddr (s : State) (c : ErrCode) : (completeErr s c).dstAddr = s.dstAddr := by
  unfold completeErr; cases c.beforeMemory <;> rfl
@[simp] theorem completeErr_dstCap (s : State) (c : ErrCode) : (completeErr s c).dstCap = s.dstCap := by
  unfold completeErr; cases c.beforeMemory <;> rfl
@[simp] theorem completeErr_dstLen (s : State) (c : ErrCode) : (completeErr s c).dstLen = 0 := rfl
@[simp] theorem completeErr_cie (s : State) (c : ErrCode) : (completeErr s c).cie = s.cie := by
  unfold completeErr; cases c.beforeMemory <;> rfl
@[simp] theorem completeErr_cip (s : State) (c : ErrCode) : (completeErr s c).cip = true := rfl
@[simp] theorem completeErr_mem (s : State) (c : ErrCode) : (completeErr s c).mem = if c.beforeMemory then s.mem else s.drawDestination.mem := by
  unfold completeErr; cases c.beforeMemory <;> rfl
@[simp] theorem completeErr_draws (s : State) (c : ErrCode) : (completeErr s c).draws = if c.beforeMemory then s.draws else s.drawDestination.draws := by
  unfold completeErr; cases c.beforeMemory <;> rfl
@[simp] theorem completeErr_platform (s : State) (c : ErrCode) : (completeErr s c).platform = s.platform := by
  unfold completeErr; cases c.beforeMemory <;> rfl
@[simp] theorem completeErr_host (s : State) (c : ErrCode) : (completeErr s c).host = s.host := by
  unfold completeErr; cases c.beforeMemory <;> rfl
@[simp] theorem completeErr_turns (s : State) (c : ErrCode) : (completeErr s c).turns = s.turns := by
  unfold completeErr; cases c.beforeMemory <;> rfl

end Sys2Proof.Machine
end

