-- ==== Sys2Proof/Laws/Ops.lean ====
section
/-! SUPPORT. What each shared operation can do: reading the source, writing the output, the region checks, Perform, and
completion. -/

namespace Sys2Proof.Machine

/-! ### Operands and windows -/

theorem regionCheck_eq_ok_iff (s : State) : regionCheck s.operands = .ok () ↔ WindowsLegal s := by
  have hsa : s.operands.sa = s.srcAddr.toNat := rfl
  have hsl : s.operands.sl = s.srcLen.toNat := rfl
  have hda : s.operands.da = s.dstAddr.toNat := rfl
  have hdc : s.operands.dc = s.dstCap.toNat := rfl
  have hsp : Config.addrSpace = 2 ^ 32 := rfl
  unfold regionCheck WindowsLegal
  rw [← hsa, ← hsl, ← hda, ← hdc, ← hsp]
  constructor
  · intro h
    split at h
    · exact absurd h (by simp)
    · split at h
      · exact absurd h (by simp)
      · exact ⟨by omega, by omega, by omega⟩
  · rintro ⟨h1, h2, h3⟩
    rw [if_neg (by omega), if_neg (by omega)]

theorem inSource_iff (s : State) (a : Addr) :
    s.inSource a = true ↔ s.srcAddr.toNat ≤ a.toNat ∧ a.toNat < s.srcAddr.toNat + s.srcLen.toNat := by
  simp [State.inSource, inWindow]

theorem inDestination_iff (s : State) (a : Addr) :
    s.inDestination a = true ↔ s.dstAddr.toNat ≤ a.toNat ∧ a.toNat < s.dstAddr.toNat + s.dstCap.toNat := by
  simp [State.inDestination, inWindow]

theorem inDestination_eq_false_iff (s : State) (a : Addr) :
    s.inDestination a = false ↔ a.toNat < s.dstAddr.toNat ∨ s.dstAddr.toNat + s.dstCap.toNat ≤ a.toNat := by
  rw [← Bool.not_eq_true, inDestination_iff]
  omega

/-! ### Engine accesses -/

/-- Reading the source answers the bytes when no read errs. -/
theorem readSource_eq_ok {p : Platform} {m : Memory} {a : Addr} {n : Nat}
    (hr : a.toNat + n ≤ Config.addrSpace)
    (h : ∀ b : Addr, a.toNat ≤ b.toNat → b.toNat < a.toNat + n → p.errs .read b = false) :
    readSource p m a n = .ok (m.readBytes a n) := by
  induction n generalizing a with
  | zero => rfl
  | succ n ih =>
    have hread : engineRead p m a = .ok (m.read a) := by simp [engineRead, h a le_rfl (by omega)]
    have hrest : readSource p m (a + 1) n = .ok (m.readBytes (a + 1) n) := by
      cases n with
      | zero => rfl
      | succ n =>
        have hn : (a + 1).toNat = a.toNat + 1 := addr_add_one_toNat (by omega)
        exact ih (by omega) fun b h1 h2 => h b (by omega) (by omega)
    simp only [readSource, hread, hrest, Memory.readBytes]
    rfl

/-- Reading the source errs with BUS_READ when some read errs. -/
theorem readSource_eq_error {p : Platform} {m : Memory} {a : Addr} {n : Nat}
    (hr : a.toNat + n ≤ Config.addrSpace) {b : Addr} (h1 : a.toNat ≤ b.toNat) (h2 : b.toNat < a.toNat + n)
    (hb : p.errs .read b = true) : readSource p m a n = .error .busRead := by
  induction n generalizing a with
  | zero => omega
  | succ n ih =>
    by_cases ha : p.errs .read a = true
    · simp only [readSource, engineRead, ha]; rfl
    · have hab : a.toNat ≠ b.toNat := fun e => ha (BitVec.eq_of_toNat_eq e ▸ hb)
      have hn : (a + 1).toNat = a.toNat + 1 := addr_add_one_toNat (by omega)
      simp only [readSource, engineRead, ha, ih (a := a + 1) (by omega) (by omega) (by omega)]
      rfl

/-- The only error of reading the source is BUS_READ. -/
theorem readSource_error {p : Platform} {m : Memory} {a : Addr} {n : Nat} {e : ErrCode}
    (h : readSource p m a n = .error e) : e = .busRead := by
  induction n generalizing a with
  | zero => cases h
  | succ n ih =>
    simp only [readSource, engineRead] at h
    split at h
    · cases h; rfl
    · cases hrest : readSource p m (a + 1) n with
      | ok bs => rw [hrest] at h; cases h
      | error e' => rw [hrest] at h; cases h; exact ih hrest

/-- Writing the output answers the memory with the bytes written when no write errs. -/
theorem writeOutput_eq_ok {p : Platform} {m : Memory} {a : Addr} {bs : List Byte}
    (hr : a.toNat + bs.length ≤ Config.addrSpace)
    (h : ∀ b : Addr, a.toNat ≤ b.toNat → b.toNat < a.toNat + bs.length → p.errs .write b = false) :
    writeOutput p m a bs = .ok (m.writeBytes a bs) := by
  induction bs generalizing m a with
  | nil => rfl
  | cons v bs ih =>
    simp only [List.length_cons] at hr h
    have hrest : writeOutput p (m.write a v) (a + 1) bs = .ok ((m.write a v).writeBytes (a + 1) bs) := by
      by_cases hbs : bs = []
      · subst hbs; rfl
      · have hpos := List.length_pos_iff.mpr hbs
        have hn : (a + 1).toNat = a.toNat + 1 := addr_add_one_toNat (by omega)
        exact ih (by omega) fun b h1 h2 => h b (by omega) (by omega)
    simp only [writeOutput, engineWrite, h a le_rfl (by omega), Memory.writeBytes]
    exact hrest

/-- Writing the output errs with BUS_WRITE when some write errs. -/
theorem writeOutput_eq_error {p : Platform} {m : Memory} {a : Addr} {bs : List Byte}
    (hr : a.toNat + bs.length ≤ Config.addrSpace) {b : Addr} (h1 : a.toNat ≤ b.toNat)
    (h2 : b.toNat < a.toNat + bs.length) (hb : p.errs .write b = true) :
    writeOutput p m a bs = .error .busWrite := by
  induction bs generalizing m a with
  | nil => simp at h2; omega
  | cons v bs ih =>
    simp only [List.length_cons] at hr h2
    by_cases ha : p.errs .write a = true
    · simp only [writeOutput, engineWrite, ha]; rfl
    · have hab : a.toNat ≠ b.toNat := fun e => ha (BitVec.eq_of_toNat_eq e ▸ hb)
      have hn : (a + 1).toNat = a.toNat + 1 := addr_add_one_toNat (by omega)
      simp only [writeOutput, engineWrite, ha]
      exact ih (by omega) (by omega) (by omega)

/-- The only error of writing the output is BUS_WRITE, and what it answers otherwise is the memory with the bytes. -/
theorem writeOutput_cases (p : Platform) (m : Memory) (a : Addr) (bs : List Byte) :
    writeOutput p m a bs = .ok (m.writeBytes a bs) ∨ writeOutput p m a bs = .error .busWrite := by
  induction bs generalizing m a with
  | nil => exact .inl rfl
  | cons v bs ih =>
    simp only [writeOutput, engineWrite]
    split
    · exact .inr rfl
    · exact ih (m.write a v) (a + 1)

/-! ### Draws -/

@[simp] theorem length_freeBytes (k n : Nat) : (freeBytes k n).length = n := by simp [freeBytes]

/-- A draw of the destination window leaves every byte outside it alone. -/
theorem drawDestination_outside (s : State) {a : Addr} (h : s.inDestination a = false) :
    s.drawDestination.mem.read a = s.mem.read a := by
  have ha : a.toNat < Config.addrSpace := a.isLt
  have hd : s.dstAddr.toNat < Config.addrSpace := s.dstAddr.isLt
  rw [inDestination_eq_false_iff] at h
  simp only [State.drawDestination_mem]
  apply Memory.read_writeBytes_outside <;> simp only [length_freeBytes, State.destinationSize] <;> omega

theorem drawDestination_wf {s : State} (h : Memory.wf s.mem) : Memory.wf s.drawDestination.mem :=
  Memory.wf_writeBytes h _ _

/-! ### Perform and completion -/

/-- Everything Perform can answer for a data command (40_control.md R126): an error, or the output written. -/
theorem performData_cases (f : List Byte → Nat → Except ErrCode Output) (s : State) :
    (∃ code, performData f s = .error code) ∨
    (∃ out, performData f s = .ok { out := out, mem := s.mem.writeBytes s.dstAddr out.bytes } ∧ WindowsLegal s ∧
      ∃ src, f src s.dstCap.toNat = .ok out) := by
  unfold performData
  simp only [bind, Except.bind, pure, Except.pure]
  cases hreg : regionCheck s.operands with
  | error e => exact .inl ⟨e, rfl⟩
  | ok u =>
    cases hsrc : readSource s.platform s.mem s.srcAddr s.operands.sl with
    | error e => exact .inl ⟨e, rfl⟩
    | ok src =>
      cases hf : f src s.operands.dc with
      | error e => exact .inl ⟨e, by simp only [hf]⟩
      | ok out =>
        rcases writeOutput_cases s.platform s.mem s.dstAddr out.bytes with hw | hw
        · exact .inr ⟨out, by simp only [hf, hw], (regionCheck_eq_ok_iff s).mp hreg, src, hf⟩
        · exact .inl ⟨.busWrite, by simp only [hf, hw]⟩

/-- Perform with legal windows and no bus error on the reads runs the command's function on the source bytes. -/
theorem performData_of_reads {f : List Byte → Nat → Except ErrCode Output} {s : State} (hw : WindowsLegal s)
    (hr : CleanReads s) :
    performData f s =
      (match f s.sourceBytes s.dstCap.toNat with
      | .error e => .error e
      | .ok out =>
        match writeOutput s.platform s.mem s.dstAddr out.bytes with
        | .error e => .error e
        | .ok m => .ok { out := out, mem := m }) := by
  have hsrc : readSource s.platform s.mem s.srcAddr s.operands.sl = .ok s.sourceBytes :=
    readSource_eq_ok hw.1 fun b h1 h2 => hr b ((inSource_iff s b).mpr ⟨h1, h2⟩)
  unfold performData
  simp only [(regionCheck_eq_ok_iff s).mpr hw, hsrc]
  simp only [bind, Except.bind, pure, Except.pure, State.operands]
  cases f s.sourceBytes s.dstCap.toNat with
  | error e => rfl
  | ok out =>
    simp only
    cases writeOutput s.platform s.mem s.dstAddr out.bytes <;> rfl

/-- A completion with an error leaves every byte outside the destination window alone. -/
theorem completeErr_outside (s : State) (c : ErrCode) {a : Addr} (h : s.inDestination a = false) :
    (completeErr s c).mem.read a = s.mem.read a := by
  rw [completeErr_mem]
  split
  · rfl
  · exact drawDestination_outside s h

theorem completeErr_wf {s : State} (h : Memory.wf s.mem) (c : ErrCode) : Memory.wf (completeErr s c).mem := by
  rw [completeErr_mem]
  split
  · exact h
  · exact drawDestination_wf h

/-- What a completion with an error leaves. -/
theorem completeErr_failedWith (s : State) (c : ErrCode) : FailedWith s (completeErr s c) c where
  setup := by constructor <;> simp
  dstLen := by simp
  status := by simp [Status.completedErr]
  idle := by simp
  pending := by simp
  outside := fun a h => completeErr_outside s c h
  untouched := by rintro (rfl | rfl | rfl) <;> rfl

/-- What a successful completion leaves, for an output within the destination window. -/
theorem completeOk_succeededWith {s : State} (hm : Memory.wf s.mem) (hw : WindowsLegal s) {out : Output}
    (hlen : out.bytes.length ≤ s.dstCap.toNat) :
    SucceededWith s (completeOk s { out := out, mem := s.mem.writeBytes s.dstAddr out.bytes }) out.bytes out.tail where
  setup := by constructor <;> simp
  dstLen := by
    have := s.dstCap.isLt
    simp only [completeOk_dstLen, BitVec.toNat_ofNat]
    omega
  status := by simp [Status.completedOk]
  idle := by simp
  pending := by simp
  written := Memory.readBytes_writeBytes hm (by have := hw.2.1; simp only [Config.addrSpace]; omega)
  unwritten := fun a h =>
    Memory.read_writeBytes_outside (by have := hw.2.1; simp only [Config.addrSpace]; omega) h

/-- The engine step of a data command completes successfully or with an error, and nothing else. -/
theorem runData_cases (f : List Byte → Nat → Except ErrCode Output) (s : State) :
    (∃ code, runData f s = completeErr s code) ∨
    (∃ out, runData f s = completeOk s { out := out, mem := s.mem.writeBytes s.dstAddr out.bytes } ∧ WindowsLegal s ∧
      ∃ src, f src s.dstCap.toNat = .ok out) := by
  rcases performData_cases f s with ⟨code, h⟩ | ⟨out, h, hw, hf⟩
  · exact .inl ⟨code, by simp [runData, h, complete]⟩
  · exact .inr ⟨out, by simp [runData, h, complete], hw, hf⟩

/-- A data command with legal windows, clean accesses and an output that fits succeeds with it. -/
theorem runData_succeeds {f : List Byte → Nat → Except ErrCode Output} {s : State} (hm : Memory.wf s.mem)
    (hw : WindowsLegal s) (hr : CleanReads s) {out : Output} (hf : f s.sourceBytes s.dstCap.toNat = .ok out)
    (hlen : out.bytes.length ≤ s.dstCap.toNat) (hwr : CleanWrites s out.bytes.length) :
    SucceededWith s (runData f s) out.bytes out.tail := by
  have hwo : writeOutput s.platform s.mem s.dstAddr out.bytes = .ok (s.mem.writeBytes s.dstAddr out.bytes) :=
    writeOutput_eq_ok (by have := hw.2.1; simp only [Config.addrSpace]; omega) hwr
  have : runData f s = completeOk s { out := out, mem := s.mem.writeBytes s.dstAddr out.bytes } := by
    simp [runData, performData_of_reads hw hr, hf, hwo, complete]
  rw [this]
  exact completeOk_succeededWith hm hw hlen

/-- The engine step of a data command keeps the canonical form of the memory. -/
theorem runData_wf {s : State} (h : Memory.wf s.mem) (f : List Byte → Nat → Except ErrCode Output) :
    Memory.wf (runData f s).mem := by
  rcases runData_cases f s with ⟨code, he⟩ | ⟨out, he, -⟩
  · rw [he]; exact completeErr_wf h code
  · rw [he]; exact Memory.wf_writeBytes h _ _

end Sys2Proof.Machine
end

