-- ==== Sys2Proof/Laws/PerInstr.lean ====
section
/-! SUPPORT. Statements about every command as syntax, one lemma per constructor. -/

namespace Sys2Proof.Laws.RoundTrip

/-- Decoding the command's word gives it back, and the word is legal (spec/30_encoding.md R90, R91). -/
def Statement (i : Instr) : Prop := decode (encode i) = .ok i ∧ i.wellFormed = true

theorem nop : Statement .nop := ⟨rfl, rfl⟩

theorem hufEnc : Statement .hufEnc := ⟨rfl, rfl⟩

theorem hufDec : Statement .hufDec := ⟨rfl, rfl⟩

theorem lzEnc : Statement .lzEnc := ⟨rfl, rfl⟩

theorem lzDec : Statement .lzDec := ⟨rfl, rfl⟩

theorem hufCodes : Statement .hufCodes := ⟨rfl, rfl⟩

end Sys2Proof.Laws.RoundTrip
end

