-- ==== Sys2Proof/Laws/Step.lean ====
section
/-! SUPPORT. What a step can do: a command, a register write, a move of the host, and the choice of who moves. -/

namespace Sys2Proof.Machine

/-! ### Commands -/

/-- Every data command is Perform with its function and a completion (spec/40_control.md R126). -/
theorem exec_data {i : Instr} (h : i ≠ .nop) (s : State) : exec i s = .next (runData (commandFunction i) s) := by
  cases i
  · exact absurd rfl h
  all_goals rfl

theorem exec_nop (s : State) :
    exec .nop s = .next (completeOk s { out := { bytes := [], tail := false }, mem := s.mem }) := rfl

/-- Everything a command can do: complete with an error, or complete with an output written (40_control.md R120). -/
theorem exec_cases (i : Instr) (s : State) :
    (∃ code, exec i s = .next (completeErr s code)) ∨
    (∃ out, exec i s = .next (completeOk s { out := out, mem := s.mem.writeBytes s.dstAddr out.bytes }) ∧
      (i = .nop ∧ out.bytes = [] ∨ WindowsLegal s ∧ ∃ src, commandFunction i src s.dstCap.toNat = .ok out)) := by
  by_cases h : i = .nop
  · subst h
    exact .inr ⟨{ bytes := [], tail := false }, rfl, .inl ⟨rfl, rfl⟩⟩
  · rw [exec_data h]
    rcases runData_cases (commandFunction i) s with ⟨code, he⟩ | ⟨out, he, hw, hf⟩
    · exact .inl ⟨code, by rw [he]⟩
    · exact .inr ⟨out, by rw [he], .inr ⟨hw, hf⟩⟩

/-- Everything the engine can do with the word in CMD. -/
theorem performCommand_cases (s : State) :
    performCommand s = .next (completeErr s .illegalCmd) ∨
    ∃ i, decode s.cmd = .ok i ∧ performCommand s = exec i s := by
  unfold performCommand
  cases h : decode s.cmd with
  | error e => exact .inl rfl
  | ok i => exact .inr ⟨i, rfl, rfl⟩

/-! ### Register writes -/

@[simp] theorem writeReg_mem (r : Reg) (w : Word) (s : State) : (writeReg r w s).mem = s.mem := by
  cases r <;> simp only [writeReg, writeCmd, whenIdle, writeIntStat] <;> (try split) <;> rfl

@[simp] theorem writeWindow_mem (off : BitVec 8) (n : Nat) (w : Word) (s : State) :
    (writeWindow off n w s).mem = s.mem := by
  unfold writeWindow
  split
  · split
    · exact writeReg_mem _ w s
    · rfl
  · rfl

@[simp] theorem hostBusWrite_mem (a : Addr) (n : Nat) (w : Word) (s : State) :
    (hostBusWrite a n w s).mem = s.mem := by
  unfold hostBusWrite
  split
  · exact writeWindow_mem _ n w s
  · rfl

@[simp] theorem writeReg_draws (r : Reg) (w : Word) (s : State) : (writeReg r w s).draws = s.draws := by
  cases r <;> simp only [writeReg, writeCmd, whenIdle, writeIntStat] <;> (try split) <;> rfl

@[simp] theorem writeWindow_draws (off : BitVec 8) (n : Nat) (w : Word) (s : State) :
    (writeWindow off n w s).draws = s.draws := by
  unfold writeWindow
  split
  · split
    · exact writeReg_draws _ w s
    · rfl
  · rfl

@[simp] theorem hostBusWrite_draws (a : Addr) (n : Nat) (w : Word) (s : State) :
    (hostBusWrite a n w s).draws = s.draws := by
  unfold hostBusWrite
  split
  · exact writeWindow_draws _ n w s
  · rfl

@[simp] theorem writeReg_platform (r : Reg) (w : Word) (s : State) : (writeReg r w s).platform = s.platform := by
  cases r <;> simp only [writeReg, writeCmd, whenIdle, writeIntStat] <;> (try split) <;> rfl

@[simp] theorem writeWindow_platform (off : BitVec 8) (n : Nat) (w : Word) (s : State) :
    (writeWindow off n w s).platform = s.platform := by
  unfold writeWindow
  split
  · split
    · exact writeReg_platform _ w s
    · rfl
  · rfl

@[simp] theorem hostBusWrite_platform (a : Addr) (n : Nat) (w : Word) (s : State) :
    (hostBusWrite a n w s).platform = s.platform := by
  unfold hostBusWrite
  split
  · exact writeWindow_platform _ n w s
  · rfl

@[simp] theorem writeReg_host (r : Reg) (w : Word) (s : State) : (writeReg r w s).host = s.host := by
  cases r <;> simp only [writeReg, writeCmd, whenIdle, writeIntStat] <;> (try split) <;> rfl

@[simp] theorem writeWindow_host (off : BitVec 8) (n : Nat) (w : Word) (s : State) :
    (writeWindow off n w s).host = s.host := by
  unfold writeWindow
  split
  · split
    · exact writeReg_host _ w s
    · rfl
  · rfl

@[simp] theorem hostBusWrite_host (a : Addr) (n : Nat) (w : Word) (s : State) :
    (hostBusWrite a n w s).host = s.host := by
  unfold hostBusWrite
  split
  · exact writeWindow_host _ n w s
  · rfl

@[simp] theorem writeReg_turns (r : Reg) (w : Word) (s : State) : (writeReg r w s).turns = s.turns := by
  cases r <;> simp only [writeReg, writeCmd, whenIdle, writeIntStat] <;> (try split) <;> rfl

@[simp] theorem writeWindow_turns (off : BitVec 8) (n : Nat) (w : Word) (s : State) :
    (writeWindow off n w s).turns = s.turns := by
  unfold writeWindow
  split
  · split
    · exact writeReg_turns _ w s
    · rfl
  · rfl

@[simp] theorem hostBusWrite_turns (a : Addr) (n : Nat) (w : Word) (s : State) :
    (hostBusWrite a n w s).turns = s.turns := by
  unfold hostBusWrite
  split
  · exact writeWindow_turns _ n w s
  · rfl

/-- A register is at its offset, and its bus address lies in the window (10_state.md R21). -/
@[simp] theorem regAt_offset (r : Reg) : regAt r.offset = some r := by cases r <;> rfl

/-- The bus address of an offset of the register window (10_state.md R21). -/
theorem toNat_regBase_add (p : Platform) (off : BitVec 8) :
    (p.regBase + off.setWidth 32).toNat = p.regBasePage.toNat * 256 + off.toNat := by
  have h1 := p.regBasePage.isLt
  have h2 := off.isLt
  have hb : p.regBase.toNat = p.regBasePage.toNat * 256 := by
    unfold Platform.regBase
    rw [BitVec.toNat_append]
    simp [Nat.shiftLeft_eq]
  rw [BitVec.toNat_add, hb, BitVec.toNat_setWidth]
  omega

/-- Every offset of the register window is selected by its bus address (10_state.md R21, R45). -/
theorem windowOffset_regBase_add (p : Platform) (off : BitVec 8) :
    windowOffset p (p.regBase + off.setWidth 32) = some off := by
  have h := toNat_regBase_add p off
  have h1 := p.regBasePage.isLt
  have h2 := off.isLt
  have hp : (p.regBase + off.setWidth 32).extractLsb' 8 24 = p.regBasePage := by
    apply BitVec.eq_of_toNat_eq
    rw [BitVec.extractLsb'_toNat, h, Nat.shiftRight_eq_div_pow]
    omega
  have ho : (p.regBase + off.setWidth 32).extractLsb' 0 8 = off := by
    apply BitVec.eq_of_toNat_eq
    rw [BitVec.extractLsb'_toNat, h, Nat.shiftRight_eq_div_pow]
    omega
  unfold windowOffset
  rw [if_pos hp, ho]

theorem windowOffset_regAddress (p : Platform) (r : Reg) : windowOffset p (regAddress p r) = some r.offset :=
  windowOffset_regBase_add p r.offset

/-- An address selects one offset only: the one it is above REG_BASE. -/
theorem eq_of_windowOffset {p : Platform} {a : Addr} {off : BitVec 8} (h : windowOffset p a = some off) :
    a = p.regBase + off.setWidth 32 := by
  unfold windowOffset at h
  split at h
  · next hp =>
    have ho : a.extractLsb' 0 8 = off := Option.some.inj h
    apply BitVec.eq_of_toNat_eq
    rw [toNat_regBase_add, ← hp, ← ho, BitVec.extractLsb'_toNat, BitVec.extractLsb'_toNat, Nat.shiftRight_eq_div_pow,
      Nat.shiftRight_eq_div_pow]
    have := a.isLt
    omega
  · exact absurd h (by simp)

/-- A register is at one offset only. -/
theorem eq_offset_of_regAt {off : BitVec 8} {r : Reg} (h : regAt off = some r) : off = r.offset := by
  unfold regAt at h
  apply BitVec.eq_of_toNat_eq
  split at h <;> simp_all [Reg.offset] <;> subst h <;> simp_all

/-- A 32-bit write at a register's bus address writes the register (30_encoding.md R101). -/
theorem hostBusWrite_regAddress (r : Reg) (w : Word) (s : State) :
    hostBusWrite (regAddress s.platform r) 4 w s = writeReg r w s := by
  simp [hostBusWrite, writeWindow, windowOffset_regAddress]

/-- A 32-bit read at a register's bus address reads the register (30_encoding.md R101). -/
theorem hostBusRead_regAddress (r : Reg) (n : VarName) (s : State) :
    hostBusRead (regAddress s.platform r) 4 n s = s.keep n (readReg s r) := by
  simp [hostBusRead, readWindow, windowOffset_regAddress]

/-! ### Moves of the host -/

/-- Everything a host read of the data memory can do. -/
theorem hostMemRead_cases (a : Addr) (n : VarName) (s : State) :
    hostMemRead a n s = { s.keep n ((Config.freeByte s.draws).setWidth 32) with draws := s.draws + 1 } ∨
    hostMemRead a n s = s.keep n ((s.mem.read a).setWidth 32) := by
  unfold hostMemRead
  split
  · exact .inl rfl
  · exact .inr rfl

/-- Everything a host read on the bus can do. -/
theorem hostBusRead_cases (a : Addr) (bytes : Nat) (n : VarName) (s : State) :
    (∃ off, windowOffset s.platform a = some off ∧ hostBusRead a bytes n s = s.keep n (readWindow s off bytes)) ∨
    (windowOffset s.platform a = none ∧
      hostBusRead a bytes n s = { s.keep n (Config.freeWord s.draws) with draws := s.draws + 1 }) := by
  unfold hostBusRead
  cases h : windowOffset s.platform a with
  | some off => exact .inl ⟨off, rfl, rfl⟩
  | none => exact .inr ⟨rfl, rfl⟩

/-- Everything a host write of the data memory can do (70_reset_and_hazards.md R305). -/
theorem hostMemWrite_cases (a : Addr) (v : Byte) (s : State) :
    (runsDataCommand s = true ∧ (s.inSource a = true ∨ s.inDestination a = true) ∧
      ∃ f, hostMemWrite a v s = .fault f) ∨
    (¬(runsDataCommand s = true ∧ (s.inSource a = true ∨ s.inDestination a = true)) ∧
      hostMemWrite a v s = .next { s with mem := s.mem.write a v }) := by
  unfold hostMemWrite
  cases runsDataCommand s <;> cases s.inSource a <;> cases s.inDestination a <;> simp

/-- Everything a move of the host can do: stop on the hazard of R305, or go on. -/
theorem hostOp_cases (op : HostOp) (s : State) :
    (∃ f, hostOp op s = .fault f) ∨
    (∃ a bytes w, op = .busWrite a bytes w ∧ hostOp op s = .next (hostBusWrite a bytes w s)) ∨
    (∃ a v, op = .memWrite a v ∧ hostOp op s = .next { s with mem := s.mem.write a v }) ∨
    (∃ n w k, hostOp op s = .next { s.keep n w with draws := k }) ∨
    (∃ pc, hostOp op s = .next (s.goTo pc)) := by
  cases op with
  | busWrite a bytes w => exact .inr (.inl ⟨a, bytes, w, rfl, rfl⟩)
  | busRead a bytes n =>
    rcases hostBusRead_cases a bytes n s with ⟨off, -, h⟩ | ⟨-, h⟩
    · exact .inr (.inr (.inr (.inl ⟨n, _, s.draws, by rw [hostOp, h]; rfl⟩)))
    · exact .inr (.inr (.inr (.inl ⟨n, _, _, by rw [hostOp, h]⟩)))
  | memWrite a v =>
    rcases hostMemWrite_cases a v s with ⟨-, -, f, h⟩ | ⟨-, h⟩
    · exact .inl ⟨f, h⟩
    · exact .inr (.inr (.inl ⟨a, v, rfl, h⟩))
  | memRead a n =>
    rcases hostMemRead_cases a n s with h | h
    · exact .inr (.inr (.inr (.inl ⟨n, _, _, by rw [hostOp, h]⟩)))
    · exact .inr (.inr (.inr (.inl ⟨n, _, s.draws, by rw [hostOp, h]; rfl⟩)))
  | branch n bit target =>
    by_cases h : (getVar s.host.vars n).getLsbD bit = true
    · exact .inr (.inr (.inr (.inr ⟨target, by rw [hostOp, if_pos h]⟩)))
    · exact .inr (.inr (.inr (.inr ⟨s.host.pc, by rw [hostOp, if_neg h]; rfl⟩)))

/-! ### Who moves -/

theorem nextTurn_cons {s : State} {t : Turn} {ts : List Turn} (h : s.turns = t :: ts) : nextTurn s = t := by
  unfold nextTurn; rw [h]

theorem nextTurn_nil_busy {s : State} (h : s.turns = []) (hb : s.eng = .busy) : nextTurn s = .engine := by
  unfold nextTurn defaultTurn; rw [h, hb]

theorem nextTurn_nil_idle {s : State} (h : s.turns = []) (hb : s.eng = .idle) : nextTurn s = .host := by
  unfold nextTurn defaultTurn; rw [h, hb]

/-- A busy engine whose turn it is performs the word in CMD. -/
theorem step_engine {s : State} (hb : s.eng = .busy) (ht : nextTurn s = .engine) :
    step s = performCommand (popTurn s) := by
  unfold step turnStep engineStep
  rw [ht]
  simp [hb]

/-- The step after a command word is placed performs it. -/
theorem step_withFetchWord (s : State) (nbits w : Nat) :
    step (s.withFetchWord nbits w) =
      performCommand { accept (BitVec.ofNat 32 (w % 2 ^ nbits)) s with turns := s.turns } := rfl

end Sys2Proof.Machine
end

