-- ==== Sys2Proof/Tests/Slice0.lean ====
section
/-! SUPPORT. The model's own tests. Expected results are those of spec/95_test_vectors.md, named beside each test, or written
out from the rule named. Then, for each statement with hypotheses, a witness that meets them. -/

namespace Sys2Proof.Tests

open Sys2Proof Sys2Proof.Machine

/-! ### Decoding: the words of 30_encoding.md R91, written out from its table -/

theorem test_decode_nop : decode 0b00000000000000000000000000000000 = .ok .nop := by decide

theorem test_decode_hufEnc : decode 0b00000000000000000000000000000001 = .ok .hufEnc := by decide

theorem test_decode_hufDec : decode 0b00000000000000000000000000000010 = .ok .hufDec := by decide

theorem test_decode_lzEnc : decode 0b00000000000000000000000000000011 = .ok .lzEnc := by decide

theorem test_decode_lzDec : decode 0b00000000000000000000000000000100 = .ok .lzDec := by decide

theorem test_decode_hufCodes : decode 0b00000000000000000000000000000101 = .ok .hufCodes := by decide

/-- K3: opcode 0x01 with a reserved bit. -/
theorem test_decode_reserved_bit : decode 0x00000101 = .error .reservedBits := by decide

/-- K4 and K2: reserved opcodes. -/
theorem test_decode_reserved_opcode :
    decode 0x00000006 = .error .reservedOpcode ∧ decode 0x000000FF = .error .reservedOpcode := by decide

/-- The top reserved bit takes part in legality (R103). -/
theorem test_decode_top_bit : decode 0x80000003 = .error .reservedBits := by decide

theorem test_decodeTableWord : decodeTableWord 32 5 = some .hufCodes ∧ decodeTableWord 32 0x105 = none := by decide

/-! ### Well-formedness: an ill-formed term for each check -/

theorem smoke_reserved_bit : legalWord 0x00000101 = false := by decide

theorem smoke_reserved_opcode : legalWord 0x00000006 = false := by decide

theorem smoke_missing_label : hostProgramWellFormed [.bnz 0 0 (.user 1)] = false := by decide

theorem smoke_label_twice : hostProgramWellFormed [.label (.user 1), .label (.user 1)] = false := by decide

theorem smoke_branch_bit : hostProgramWellFormed [.label (.user 1), .bnz 0 32 (.user 1)] = false := by decide

theorem smoke_wait_is_well_formed : hostProgramWellFormed (expand 0 [.wait, .wait]) = true := by decide

/-! ### Helpers -/

/-- A running command `w` on the source bytes `src` at 0x1000, with `cap` bytes of destination at 0x2000. -/
def running (w : Word) (src : List Byte) (cap : Word) : State :=
  { State.reset with
    cmd := w, eng := .busy, srcAddr := 0x1000, srcLen := BitVec.ofNat 32 src.length, dstAddr := 0x2000, dstCap := cap
    mem := Memory.writeBytes [] 0x1000 src }

/-- The same machine before any command was written. -/
def ready (src : List Byte) (cap : Word) : State := { running 0 src cap with eng := .idle }

/-- What is asked of the state after one step; a stop answers none. -/
def after (s : State) (f : State → α) : Option α :=
  match step s with
  | .next t => some (f t)
  | .fault _ => none
  | .refused _ => none

/-- STATUS, DST_LEN and the first `n` destination bytes. -/
def outcome (n : Nat) (t : State) : Word × Word × List Byte := (statusWord t, t.dstLen, t.mem.readBytes 0x2000 n)

def tenA : List Byte := List.replicate 10 0x41

/-! ### One step of each command -/

/-- K1. -/
theorem test_nop : after (running 0x0 [] 0) (fun t => (statusWord t, t.dstLen, t.cip)) = some (0x2, 0, true) := by
  decide

/-- K2: ILLEGAL_CMD, and the destination keeps its bytes (R127). -/
theorem test_illegal : after (running 0xFF tenA 4) (outcome 2) = some (0x106, 0, [0x00, 0x00]) := by decide +kernel

/-- H1. -/
theorem test_hufEnc_single_symbol : after (running 0x1 tenA 9) (outcome 10) =
    some (0x2, 9, [0x02, 0x01, 0x41, 0x0A, 0x00, 0x00, 0x00, 0x00, 0x00, 0x00]) := by decide +kernel

/-- H10, "AABBC": the inherited sym and both tie-breaks. -/
theorem test_hufEnc_three_symbols : after (running 0x1 [0x41, 0x41, 0x42, 0x42, 0x43] 0x20) (outcome 18) =
    some (0x2, 18, [0x08, 0x03, 0x41, 0x02, 0x00, 0x00, 0x00, 0x42, 0x02, 0x00, 0x00, 0x00, 0x43, 0x01, 0x00, 0x00,
      0x00, 0xF2]) := by decide +kernel

/-- D2 on H9's container of "ABC". -/
theorem test_hufDec : after (running 0x2 [0x05, 0x03, 0x41, 0x01, 0x00, 0x00, 0x00, 0x42, 0x01, 0x00, 0x00, 0x00, 0x43,
    0x01, 0x00, 0x00, 0x00, 0xB0] 3) (outcome 4) = some (0x2, 3, [0x41, 0x42, 0x43, 0x00]) := by decide +kernel

/-- D12: HUF_CORRUPT. -/
theorem test_hufDec_corrupt : after (running 0x2 [0x01, 0x01, 0x41, 0x01, 0x00, 0x00, 0x00, 0x80] 1)
    (fun t => (statusWord t, t.dstLen)) = some (0x1306, 0) := by decide +kernel

/-- E1. -/
theorem test_lzEnc : after (running 0x3 tenA 6) (outcome 7) =
    some (0x2, 6, [0x00, 0x00, 0x41, 0x01, 0x08, 0x41, 0x00]) := by decide +kernel

/-- E10's input: distance 3 of length 2, and the smaller of two equal distances. -/
theorem test_lzEnc_ties : lzEncode [0x58, 0x41, 0x42, 0x59, 0x41, 0x42, 0x5A, 0x41, 0x42] 18 =
    .ok [0x00, 0x00, 0x58, 0x00, 0x00, 0x41, 0x00, 0x00, 0x42, 0x00, 0x00, 0x59, 0x03, 0x02, 0x5A, 0x03, 0x01, 0x42] := by
  decide +kernel

/-- X2 with a byte left over: the overlapping copy, and TAIL as in X7. -/
theorem test_lzDec_tail : after (running 0x4 [0x00, 0x00, 0x41, 0x00, 0x00, 0x42, 0x02, 0x05, 0x43, 0x07] 8) (outcome 9) =
    some (0xA, 8, [0x41, 0x42, 0x41, 0x42, 0x41, 0x42, 0x41, 0x43, 0x00]) := by decide +kernel

/-- X14: the first tuple fails its size check. -/
theorem test_lzDec_overflow : after (running 0x4 [0x00, 0x00, 0x41, 0x05, 0x01, 0x42] 0)
    (fun t => (statusWord t, t.dstLen)) = some (0x606, 0) := by decide +kernel

/-- Q2: the records of "AB". -/
theorem test_hufCodes : (codeTable [0x41, 0x42]).map (fun p => (p.1, (codeRecord (some p.2)).take 2)) =
    [(0x41, [0x01, 0x00]), (0x42, [0x01, 0x80])] := by decide +kernel

/-- Q5: DST_OVERFLOW. -/
theorem test_hufCodes_overflow : after (running 0x5 [0x41, 0x42] 8447) (fun t => (statusWord t, t.dstLen)) =
    some (0x606, 0) := by decide +kernel

/-! ### The lifecycle -/

/-- K6: a window one byte past 2^32. -/
theorem test_range : after { running 0x3 [] 0x100 with srcAddr := 0xFFFFFFF0, srcLen := 0x11 } statusWord =
    some 0x206 := by decide +kernel

/-- K10: in place is OVERLAP. -/
theorem test_overlap : after { running 0x1 [0x00] 1 with dstAddr := 0x1000 } statusWord = some 0x306 := by decide +kernel

/-- R276: a bus error on the last source byte. -/
theorem test_busRead : after { running 0x3 tenA 6 with
    platform := { regBasePage := 0, busErr := [{ kind := .read, base := 0x1009, len := 1 }] } } statusWord =
    some 0x406 := by decide +kernel

/-- R276: a bus error on the last output byte. -/
theorem test_busWrite : after { running 0x3 tenA 6 with
    platform := { regBasePage := 0, busErr := [{ kind := .write, base := 0x2005, len := 1 }] } } statusWord =
    some 0x506 := by decide +kernel

/-- K12: a second CMD write before the engine's step is lost. -/
theorem test_lost : after { writeReg .cmd 0x0 (running 0x0 [] 0) with turns := [.engine] } statusWord = some 0x12 := by
  decide

/-- R301: a reset while busy sets no flag. -/
theorem test_reset_while_busy : after { running 0x0 [] 0 with turns := [.reset], cie := true }
    (fun t => (statusWord t, t.cip, t.cie, t.eng)) = some (0, false, false, .idle) := by decide

/-- The step after `withFetchWord` runs the command from reset. -/
theorem test_withFetchWord : after (State.reset.withFetchWord 32 0x3) (fun t => (t.cmd, statusWord t)) =
    some (0x3, 0x2) := by decide +kernel

/-- R102: RUN is four operand writes, the command and WAIT, at REG_BASE + offset. -/
theorem test_run_program : assemble { regBasePage := 0x400000, busErr := [] } [.run .hufEnc 0x1000 11 0x2000 0x100] =
    some [.busWrite 0x4000000C 4 0x1000, .busWrite 0x40000010 4 0xB, .busWrite 0x40000014 4 0x2000,
      .busWrite 0x40000018 4 0x100, .busWrite 0x40000004 4 0x1, .busRead 0x40000008 4 0, .branch 0 0 5] := by decide

/-! ### Witnesses: states and operands that meet the statements' hypotheses -/

theorem windows_running (w : Word) : WindowsLegal (running w tenA 10000) :=
  (by unfold WindowsLegal; decide : WindowsLegal (running 0 tenA 10000))

theorem clean_reads_of_no_region {s : State} (h : s.platform.busErr = []) : CleanReads s := by
  intro a _; simp [Platform.errs, h]

theorem clean_writes_of_no_region {s : State} (h : s.platform.busErr = []) (n : Nat) : CleanWrites s n := by
  intro a _ _; simp [Platform.errs, h]

/-- A running LZ_ENC on ten 'A', with room for every output. -/
def busyLz : State := running 0x3 tenA 10000

/-- The same with the engine's turn listed. -/
def busyLzTurn : State := { busyLz with turns := [.engine, .host] }

theorem witness_engine_turn : busyLz.eng = .busy ∧ nextTurn busyLz = .engine ∧ decode busyLz.cmd = .ok .lzEnc := by
  decide

theorem witness_engine_turn_listed :
    busyLzTurn.eng = .busy ∧ nextTurn busyLzTurn = .engine ∧ decode busyLzTurn.cmd = .ok .lzEnc := by decide

/-- Both clauses of the illegal word at their boundary: the lowest reserved bit, and the first reserved opcode. -/
theorem witness_illegal_word :
    (running 0x100 [] 0).cmd.extractLsb' 8 24 ≠ 0 ∧ 0x06 ≤ ((running 0x6 [] 0).cmd.extractLsb' 0 8).toNat ∧
      nextTurn (running 0x100 [] 0) = .engine ∧ nextTurn (running 0x6 [] 0) = .engine := by decide

/-- A source window one byte past 2^32. -/
def sourcePastTop : State := { busyLz with srcAddr := 0xFFFFFFFF, srcLen := 2 }

/-- A destination window one byte past 2^32. -/
def destinationPastTop : State := { busyLz with dstAddr := 0xFFFFFFFF, dstCap := 2 }

theorem witness_range :
    sourcePastTop.srcAddr.toNat + sourcePastTop.srcLen.toNat > 2 ^ 32 ∧
      destinationPastTop.dstAddr.toNat + destinationPastTop.dstCap.toNat > 2 ^ 32 := by decide

/-- K7: the windows share the one byte 0x100F. -/
def overlapping : State :=
  { State.reset with srcAddr := 0x1000, srcLen := 0x10, dstAddr := 0x100F, dstCap := 1, cmd := 0x3, eng := .busy }

theorem witness_overlap :
    overlapping.srcAddr.toNat + overlapping.srcLen.toNat ≤ 2 ^ 32 ∧
      overlapping.dstAddr.toNat + overlapping.dstCap.toNat ≤ 2 ^ 32 ∧ overlapping.inSource 0x100F = true ∧
      overlapping.inDestination 0x100F = true := by decide

/-- A platform that errs on the last source byte and the last byte of E1's output. -/
def erring : State :=
  { busyLz with platform := { regBasePage := 0, busErr := [⟨.read, 0x1009, 1⟩, ⟨.write, 0x2005, 1⟩] } }

theorem witness_bus_read :
    WindowsLegal erring ∧ erring.inSource 0x1009 = true ∧ erring.platform.errs .read 0x1009 = true :=
  ⟨windows_running 0x3, by decide, by decide⟩

/-- A platform that errs on the last byte of E1's output only. -/
def erringWrite : State := { busyLz with platform := { regBasePage := 0, busErr := [⟨.write, 0x2005, 1⟩] } }

theorem witness_bus_write :
    WindowsLegal erringWrite ∧ CleanReads erringWrite ∧
      commandFunction .lzEnc erringWrite.sourceBytes erringWrite.dstCap.toNat =
        .ok { bytes := [0x00, 0x00, 0x41, 0x01, 0x08, 0x41], tail := false } ∧
      erringWrite.dstAddr.toNat ≤ (0x2005 : Addr).toNat ∧ (0x2005 : Addr).toNat < erringWrite.dstAddr.toNat + 6 ∧
      erringWrite.platform.errs .write 0x2005 = true :=
  ⟨windows_running 0x3, by intro a _; simp [erringWrite, Platform.errs], by decide +kernel, by decide, by decide,
    by decide⟩

/-- X3: LZ_DISTANCE. -/
theorem witness_function_error :
    let s := running 0x4 [0x01, 0x01, 0x41] 9
    WindowsLegal s ∧ CleanReads s ∧ commandFunction .lzDec s.sourceBytes s.dstCap.toNat = .error .lzDistance :=
  ⟨by unfold WindowsLegal; decide, clean_reads_of_no_region rfl, by decide +kernel⟩

/-- H15: an exact fit; and the empty input (H13) in an empty window. -/
theorem witness_hufEnc :
    let s := running 0x1 tenA 9
    let bits := bitStream (codeTable s.sourceBytes) s.sourceBytes
    Memory.wf s.mem ∧ WindowsLegal s ∧ CleanReads s ∧ CleanWrites s 9 ∧ s.sourceBytes ≠ [] ∧ s.dstCap.toNat = 9 ∧
      header bits.length (table (freqCount s.sourceBytes)) ++ pack bits =
        [0x02, 0x01, 0x41, 0x0A, 0x00, 0x00, 0x00, 0x00, 0x00] ∧
      (running 0x1 [] 0).sourceBytes = [] :=
  ⟨by decide +kernel, by unfold WindowsLegal; decide, clean_reads_of_no_region rfl, clean_writes_of_no_region rfl 9,
    by decide +kernel, by decide, by decide +kernel, by decide⟩

/-- D1, both clauses: H1's container decodes, and it is what HUF_ENC makes of ten 'A'. -/
theorem witness_hufDec :
    let s := running 0x2 [0x02, 0x01, 0x41, 0x0A, 0x00, 0x00, 0x00, 0x00, 0x00] 10
    Memory.wf s.mem ∧ WindowsLegal s ∧ CleanReads s ∧ CleanWrites s 10 ∧
      hufDecode s.sourceBytes s.dstCap.toNat = .ok tenA ∧ tenA.length ≤ s.dstCap.toNat ∧
      hufEncode tenA 9 = .ok s.sourceBytes :=
  ⟨by decide +kernel, by unfold WindowsLegal; decide, clean_reads_of_no_region rfl, clean_writes_of_no_region rfl 10,
    by decide +kernel, by decide, by decide +kernel⟩

/-- E1 in an exact fit of 6 bytes, and in a larger window whose byte after the output errs. -/
theorem witness_lzEnc :
    let s := running 0x3 tenA 6
    let s' : State := { running 0x3 tenA 29 with platform := { regBasePage := 0, busErr := [⟨.write, 0x2006, 1⟩] } }
    (Memory.wf s.mem ∧ WindowsLegal s ∧ CleanReads s ∧ CleanWrites s (3 * (lzTuples s.sourceBytes).length) ∧
      3 * (lzTuples s.sourceBytes).length = s.dstCap.toNat) ∧
    (WindowsLegal s' ∧ CleanReads s' ∧ CleanWrites s' 6 ∧ s'.platform.errs .write 0x2006 = true ∧
      3 * (lzTuples s'.sourceBytes).length = 6) := by
  refine ⟨⟨by decide +kernel, by unfold WindowsLegal; decide, clean_reads_of_no_region rfl,
    clean_writes_of_no_region rfl _, by decide +kernel⟩, by unfold WindowsLegal; decide, ?_, ?_, by decide, by decide +kernel⟩
  · intro a _
    simp [Platform.errs]
  · intro a _ h
    have h : a.toNat < 0x2006 := h
    simp [Platform.errs]
    omega

/-- X12, both clauses: E1's stream decodes, and it is what LZ_ENC makes of ten 'A'. -/
theorem witness_lzDec :
    let s := running 0x4 [0x00, 0x00, 0x41, 0x01, 0x08, 0x41] 10
    Memory.wf s.mem ∧ WindowsLegal s ∧ CleanReads s ∧ CleanWrites s 10 ∧
      lzDecode s.sourceBytes s.dstCap.toNat = .ok { bytes := tenA, tail := false } ∧
      tenA.length ≤ s.dstCap.toNat ∧ lzEncode tenA 6 = .ok s.sourceBytes :=
  ⟨by decide +kernel, by unfold WindowsLegal; decide, clean_reads_of_no_region rfl, clean_writes_of_no_region rfl 10,
    by decide +kernel, by decide, by decide +kernel⟩

theorem witness_hufCodes :
    let s := running 0x5 tenA 8448
    Memory.wf s.mem ∧ WindowsLegal s ∧ CleanReads s ∧ CleanWrites s 8448 ∧ 8448 ≤ s.dstCap.toNat :=
  ⟨by decide +kernel, by unfold WindowsLegal; decide, clean_reads_of_no_region rfl, clean_writes_of_no_region rfl 8448,
    by decide⟩

/-- Each clause of the overflow one byte short: Q5, E11, H14. -/
theorem witness_overflow :
    (∀ cap : Word, WindowsLegal (running 0x5 tenA 8447) ∧ CleanReads (running 0x5 tenA cap)) ∧
      (running 0x5 tenA 8447).dstCap.toNat < 8448 ∧
      (running 0x3 tenA 5).dstCap.toNat < 3 * (lzTuples (running 0x3 tenA 5).sourceBytes).length ∧
      hufEncode (running 0x1 tenA 8).sourceBytes 9 = .ok [0x02, 0x01, 0x41, 0x0A, 0x00, 0x00, 0x00, 0x00, 0x00] ∧
      (running 0x1 tenA 8).dstCap.toNat < 9 ∧ WindowsLegal (running 0x3 tenA 5) ∧ WindowsLegal (running 0x1 tenA 8) :=
  ⟨fun _ => ⟨by unfold WindowsLegal; decide, clean_reads_of_no_region rfl⟩, by decide, by decide +kernel,
    by decide +kernel, by decide, by unfold WindowsLegal; decide, by unfold WindowsLegal; decide⟩

theorem witness_idle_and_busy : (ready tenA 9).eng = .idle ∧ busyLz.eng = .busy := by decide

theorem witness_operand_registers : (ready tenA 9).eng = .idle ∧ Reg.srcAddr ∈ [Reg.srcAddr, .srcLen, .dstAddr, .dstCap] ∧
    Reg.dstCap ∈ [Reg.srcAddr, .srcLen, .dstAddr, .dstCap] := by decide

/-- The first and the last reserved offset. -/
theorem witness_reserved_offset : 0x28 ≤ (0x28 : BitVec 8).toNat ∧ 0x28 ≤ (0xFC : BitVec 8).toNat := by decide

/-- A 16-bit access at CMD, and a misaligned 32-bit one. -/
theorem witness_odd_access : (2 : Nat) ≠ 4 ∧ (0x05 : BitVec 8).toNat % 4 ≠ 0 := by decide

/-- The code of a status field: an error and success. -/
theorem witness_status_code :
    (some ErrCode.lzDistance, (0x20 : BitVec 8)) ∈ [(none, (0x00 : BitVec 8)), (some ErrCode.lzDistance, 0x20)] ∧
      ({ State.reset with status := { Status.reset with errCode := some .lzDistance } } : State).status.errCode =
        some .lzDistance ∧ State.reset.status.errCode = none := by decide

/-- A read of STATUS is no write to CMD or INT_STAT, and answers a next state. -/
theorem witness_flagless_op :
    let op : HostOp := .busRead (regAddress busyLz.platform .status) 4 1
    hostOp op busyLz = .next (hostBusRead (regAddress busyLz.platform .status) 4 1 busyLz) ∧
      (∀ w, op ≠ .busWrite (regAddress busyLz.platform .cmd) 4 w) ∧
      ∀ w, op ≠ .busWrite (regAddress busyLz.platform .intStat) 4 w :=
  ⟨rfl, fun _ => by simp, fun _ => by simp⟩

/-- A running data command, with an address at the edge of each clause: the first and last byte of both windows, and the bytes
next to them. -/
theorem witness_window_access :
    let s := running 0x3 tenA 0x40
    Memory.wf s.mem ∧ s.eng = .busy ∧ decode s.cmd = .ok .lzEnc ∧ s.inSource 0x1000 = true ∧ s.inSource 0x1009 = true ∧
      s.inSource 0x100A = false ∧ s.inDestination 0x2000 = true ∧ s.inDestination 0x203F = true ∧
      s.inDestination 0x2040 = false ∧ s.inSource 0x2040 = false ∧ s.inDestination 0x1009 = false := by decide +kernel

/-- A hazard, and a state without one. -/
theorem witness_hazard :
    HazardNext { busyLz with turns := [.host], host := { prog := [.memWrite 0x2000 0x55], pc := 0, vars := [] } } ∧
      ¬HazardNext busyLz :=
  ⟨⟨rfl, by decide, 0x2000, 0x55, rfl, .inr (by decide)⟩, fun h => absurd h.1 (by decide)⟩

/-- A busy state that meets the invariant, and whose step answers a next state. -/
theorem witness_invariant : MachineInv busyLz ∧ (after busyLz State.eng).isSome = true :=
  ⟨⟨by decide +kernel, by decide, by decide, by decide, by decide, by decide⟩, by decide +kernel⟩

/-- A reset of an idle and of a busy machine, with an address outside the window. -/
theorem witness_reset :
    nextTurn { busyLz with turns := [.reset] } = .reset ∧ busyLz.inDestination 0x1000 = false ∧
      nextTurn { ready tenA 9 with turns := [.reset] } = .reset ∧ (ready tenA 9).eng = .idle := by decide

/-- Two histories: another CMD, STATUS, DST_LEN and draws; the same operands and memory. -/
theorem witness_history :
    let s₁ := busyLz
    let s₂ : State := { busyLz with cmd := 0x77, draws := 5, status := { Status.reset with cmdLost := true }, dstLen := 3 }
    s₁ ≠ s₂ ∧ s₁.srcAddr = s₂.srcAddr ∧ s₁.srcLen = s₂.srcLen ∧ s₁.dstAddr = s₂.dstAddr ∧ s₁.dstCap = s₂.dstCap ∧
      s₁.mem = s₂.mem ∧ s₁.platform = s₂.platform := by decide +kernel

/-- CIP rises at a completion, and falls at an acknowledge. -/
theorem witness_pending_bit :
    busyLz.cip = false ∧ after busyLz State.cip = some true ∧
      after { State.reset with cip := true, host := { prog := [.busWrite 0x24 4 1], pc := 0, vars := [] } } State.cip =
        some false := by decide +kernel

/-- The engine becomes busy at a CMD write, and idle at a completion. -/
theorem witness_engine_state :
    after { State.reset with host := { prog := [.busWrite 0x04 4 0x3], pc := 0, vars := [] } } State.eng = some .busy ∧
      after busyLz State.eng = some .idle := by decide +kernel

theorem witness_schedule :
    let s : State := { busyLz with turns := [.host, .host, .engine] }
    s.eng = .busy ∧ Turn.reset ∉ s.turns := by decide

/-! Witnesses for the pure functions -/

/-- ABRACADABRA's table (95_test_vectors.md L2.2). -/
def abraTable : List Entry := [⟨0x41, 5⟩, ⟨0x42, 2⟩, ⟨0x43, 1⟩, ⟨0x44, 1⟩, ⟨0x52, 2⟩]

/-- Its tree, as the merges of L2.2 give it. -/
def abraTree : Tree :=
  .node 0x41 11 (.leaf 0x41 5)
    (.node 0x52 6 (.leaf 0x52 2)
      (.node 0x42 4 (.leaf 0x42 2) (.node 0x43 2 (.leaf 0x43 1) (.leaf 0x44 1))))

theorem witness_tree : abraTable ≠ [] ∧ (abraTable.map Entry.sym).Nodup ∧ buildTree abraTable = some abraTree := by
  decide +kernel

theorem witness_tree_single : buildTree [⟨0x5A, 1⟩] = some (.leaf 0x5A 1) ∧ ([⟨0x5A, 1⟩] : List Entry).length = 1 := by
  decide

theorem witness_table_order : abraTable.Perm abraTable.reverse ∧ (abraTable.map Entry.sym).Nodup :=
  ⟨(List.reverse_perm abraTable).symm, by decide⟩

theorem witness_codes :
    codeOf (codes abraTree) 0x42 = some [true, true, false] ∧ codeOf (codes abraTree) 0x44 = some [true, true, true, true] := by
  decide

theorem witness_nonempty_input : ([0x5A] : List Byte) ≠ [] ∧ ([0x5A] : List Byte).length < 2 ^ 32 := by decide

theorem witness_code_record : ∀ bits, (none : Option Bits) = some bits → bits.length ≤ 255 := by simp

/-- The longest code there can be. -/
theorem witness_code_record_longest :
    ∀ bits, some (List.replicate 255 true) = some bits → bits.length ≤ 255 := by
  intro bits h
  cases h
  exact Nat.le_of_eq List.length_replicate

theorem witness_container :
    ([0x5A] : List Byte) ≠ [] ∧ ([0x5A] : List Byte).length < 2 ^ 32 ∧
      hufEncode [0x5A] 8 = .ok [0x01, 0x01, 0x5A, 0x01, 0x00, 0x00, 0x00, 0x00] ∧
      (table (freqCount [0x5A]))[0]? = some ⟨0x5A, 1⟩ := by decide +kernel

theorem witness_round_trip_input : tenA.length < 2 ^ 32 := by decide

/-- Each clause of the header checks at its boundary: u of 0 and 9; u of 1 and 8; a table one byte short; a duplicate; a count of
0; a sum one above the capacity. -/
theorem witness_header :
    (0 : Byte).toNat = 0 ∧ 8 < (9 : Byte).toNat ∧ 1 ≤ (1 : Byte).toNat ∧ (8 : Byte).toNat ≤ 8 ∧
      (List.replicate 4 (0 : Byte)).length < 5 * (if (1 : Byte).toNat = 0 then 256 else (1 : Byte).toNat) ∧
      ([⟨0x41, 1⟩, ⟨0x41, 1⟩] : List Entry).length = (if (2 : Byte).toNat = 0 then 256 else (2 : Byte).toNat) ∧
      ¬TableLegal [⟨0x41, 1⟩, ⟨0x41, 1⟩] ∧ ¬TableLegal [⟨0x41, 0⟩] ∧ TableLegal [⟨0x41, 10⟩] ∧
      9 < (([⟨0x41, 10⟩] : List Entry).map Entry.freq).sum := by
  unfold TableLegal; decide

/-- D16 and D1; D12; D14 and D13: the three clauses of the single-symbol walk. -/
theorem witness_single_symbol :
    ((∀ x ∈ payloadBits [0x00] 1, x = false) ∧ (payloadBits [0x00] 1).length = 1) ∧
      true ∈ (payloadBits [0x80] 1).take 1 ∧
      (true ∉ (payloadBits [0x00] 1).take 2 ∧ (payloadBits [0x00] 1).length ≠ 2) ∧
      (true ∉ (payloadBits [0x00] 2).take 1 ∧ (payloadBits [0x00] 2).length ≠ 1) := by decide

/-- D19's table and payload, its counts not those of its bytes: the codes of "AA" fill the two usable bits. With one usable bit
one is missing, with three one is left. -/
theorem witness_walk :
    let tbl : List Entry := [⟨0x41, 1⟩, ⟨0x42, 1⟩]
    let root : Tree := .node 0x41 2 (.leaf 0x41 1) (.leaf 0x42 1)
    TableLegal tbl ∧ tbl.length = (if (2 : Byte).toNat = 0 then 256 else (2 : Byte).toNat) ∧ buildTree tbl = some root ∧
      totalFreq tbl = 2 ∧ (∀ b ∈ [0x41, 0x41], b ∈ tbl.map Entry.sym) ∧
      payloadBits [0x00] 2 = bitStream (codes root) [0x41, 0x41] ∧
      payloadBits [0x00] 3 = bitStream (codes root) [0x41, 0x41] ++ [false] ∧
      payloadBits [0x00] 1 ++ [false] = bitStream (codes root) [0x41, 0x41] := by
  unfold TableLegal; decide

/-- D19: per-symbol counts are not checked. -/
theorem test_hufDec_counts : hufDecode [0x02, 0x02, 0x41, 0x01, 0x00, 0x00, 0x00, 0x42, 0x01, 0x00, 0x00, 0x00, 0x00] 2 =
    .ok [0x41, 0x41] := by decide +kernel

/-- D18: the padding bits of 0x3F and 0x00 after two usable ones. -/
theorem witness_padding :
    5 * (if (1 : Byte).toNat = 0 then 256 else (1 : Byte).toNat) ≤ ([0x41, 2, 0, 0, 0] : List Byte).length ∧
      ∀ k, k < (2 : Byte).toNat → k < 8 → (0x3F : Byte).getLsbD (7 - k) = (0x00 : Byte).getLsbD (7 - k) := by
  decide

/-- Z3, and Z1 at the first position. -/
theorem witness_match :
    longestMatchAt [0x41, 0x42, 0x41, 0x42, 0x41, 0x42, 0x41, 0x42] 2 = (2, 5) ∧ longestMatchAt tenA 0 = (0, 0) := by
  decide +kernel

/-- Z2's match at distance 1, of every length up to 8. -/
theorem witness_match_maximal :
    1 < tenA.length ∧ longestMatchAt tenA 1 = (1, 8) ∧ 1 ≤ min 255 1 ∧ 1 + 8 + 1 ≤ tenA.length ∧
      ∀ m, m < 8 → tenA[1 - 1 + m]? = tenA[1 + m]? := by decide +kernel

/-- E1's two tuples, each split out of the stream. -/
theorem witness_tuples :
    lzTuples tenA = [] ++ ⟨0, 0, 0x41⟩ :: [⟨1, 8, 0x41⟩] ∧ lzTuples tenA = [⟨0, 0, 0x41⟩] ++ ⟨1, 8, 0x41⟩ :: [] := by
  decide +kernel

/-- The first merge of ABRACADABRA (95_test_vectors.md L2.2): C and D, C on the left. -/
theorem test_first_merge :
    (extractMin (.leaf 0x41 5) (abraTable.tail.map fun e => .leaf e.sym e.freq)).1 = .leaf 0x43 1 ∧
      merge (.leaf 0x43 1) (.leaf 0x44 1) = .node 0x43 2 (.leaf 0x43 1) (.leaf 0x44 1) := by decide

theorem witness_lz_round_trip : 3 * (lzTuples tenA).length ≤ 6 ∧ tenA.length ≤ 10 := by decide +kernel

/-- X7 and X8: one and two bytes after a whole tuple, and X3 with one. -/
theorem witness_trailing :
    ([0x00, 0x00, 0x41] : List Byte).length % 3 = 0 ∧ ([0x00] : List Byte).length = 1 ∧ ([0x01, 0x01] : List Byte).length = 2 ∧
      lzDecode [0x00, 0x00, 0x41] 1 = .ok { bytes := [0x41], tail := false } ∧
      lzDecode [0x01, 0x01, 0x41] 9 = .error .lzDistance := by decide

/-- After `00 00 41` (one byte of output): X4 and X5 for the distance, X11 for the size, X12 for the copy. -/
theorem witness_next_tuple :
    ([0x00, 0x00, 0x41] : List Byte).length % 3 = 0 ∧
      lzDecode [0x00, 0x00, 0x41] 9 = .ok { bytes := [0x41], tail := false } ∧
      (0 < (1 : Byte).toNat ∧ (0 : Byte).toNat = 0) ∧ ([0x41] : List Byte).length < (2 : Byte).toNat ∧
      ¬(0 < (8 : Byte).toNat ∧ ((1 : Byte).toNat = 0 ∨ ([0x41] : List Byte).length < (1 : Byte).toNat)) ∧
      9 < ([0x41] : List Byte).length + (8 : Byte).toNat + 1 ∧ ([0x41] : List Byte).length + (8 : Byte).toNat + 1 ≤ 10 := by
  decide

end Sys2Proof.Tests
end

/-! PROOFS. The register window and the host's accesses to it (10_state.md R21 to R34, R36): the laws that the model's own
do not state, and the statements that follow from them. -/

namespace Sys2Proof.Machine

/-! ### The host's names -/

theorem getVar_setVar_same (vars : List (VarName × Word)) (n : VarName) (w : Word) :
    getVar (setVar vars n w) n = w := by
  simp [getVar, setVar]

theorem getVar_setVar_other (vars : List (VarName × Word)) {m n : VarName} (w : Word) (h : m ≠ n) :
    getVar (setVar vars n w) m = getVar vars m := by
  have hn : (n == m) = false := beq_false_of_ne h.symm
  have hfind : (setVar vars n w).find? (fun p => p.1 == m) = vars.find? (fun p => p.1 == m) := by
    rw [setVar, List.find?_cons_of_neg (by simp [hn]), List.find?_filter]
    congr 1
    funext p
    by_cases hp : p.1 = m <;> simp [hp, h]
  rw [getVar, getVar, hfind]

@[simp] theorem getVar_keep_same (s : State) (n : VarName) (w : Word) : getVar (s.keep n w).host.vars n = w :=
  getVar_setVar_same s.host.vars n w

theorem getVar_keep_other (s : State) {m n : VarName} (w : Word) (h : m ≠ n) :
    getVar (s.keep n w).host.vars m = getVar s.host.vars m :=
  getVar_setVar_other s.host.vars w h

/-! ### Offsets without a register -/

theorem Reg.offset_lt (r : Reg) : r.offset.toNat < 0x28 := by cases r <;> decide

theorem Reg.offset_aligned (r : Reg) : r.offset.toNat % 4 = 0 := by cases r <;> rfl

/-- A reserved offset selects no register (10_state.md R32). -/
theorem regAt_eq_none_of_reserved {off : BitVec 8} (h : 0x28 ≤ off.toNat) : regAt off = none := by
  cases hr : regAt off with
  | none => rfl
  | some r =>
    have := r.offset_lt
    rw [← eq_offset_of_regAt hr] at this
    omega

/-- A misaligned offset selects no register (10_state.md R33). -/
theorem regAt_eq_none_of_misaligned {off : BitVec 8} (h : off.toNat % 4 ≠ 0) : regAt off = none := by
  cases hr : regAt off with
  | none => rfl
  | some r => exact absurd (eq_offset_of_regAt hr ▸ r.offset_aligned) h

/-- An access that is not 32 bits wide or selects no register reads 0. -/
theorem readWindow_eq_zero (s : State) {off : BitVec 8} {bytes : Nat} (h : bytes ≠ 4 ∨ regAt off = none) :
    readWindow s off bytes = 0 := by
  rcases h with h | h <;> simp [readWindow, h]

/-- An access that is not 32 bits wide or selects no register writes nothing. -/
theorem writeWindow_eq_self (w : Word) (s : State) {off : BitVec 8} {bytes : Nat} (h : bytes ≠ 4 ∨ regAt off = none) :
    writeWindow off bytes w s = s := by
  rcases h with h | h <;> simp [writeWindow, h]

/-! ### Bus accesses of the window -/

theorem hostOp_busRead_window (s : State) (off : BitVec 8) (bytes : Nat) (n : VarName) :
    hostOp (.busRead (s.platform.regBase + off.setWidth 32) bytes n) s = .next (s.keep n (readWindow s off bytes)) := by
  simp [hostOp, hostBusRead, windowOffset_regBase_add]

theorem hostOp_busWrite_window (s : State) (off : BitVec 8) (bytes : Nat) (w : Word) :
    hostOp (.busWrite (s.platform.regBase + off.setWidth 32) bytes w) s = .next (writeWindow off bytes w s) := by
  simp [hostOp, hostBusWrite, windowOffset_regBase_add]

theorem hostOp_busRead_reg (s : State) (r : Reg) (n : VarName) :
    hostOp (.busRead (regAddress s.platform r) 4 n) s = .next (s.keep n (readReg s r)) := by
  rw [hostOp, hostBusRead_regAddress]

theorem hostOp_busWrite_reg (s : State) (r : Reg) (w : Word) :
    hostOp (.busWrite (regAddress s.platform r) 4 w) s = .next (writeReg r w s) := by
  rw [hostOp, hostBusWrite_regAddress]

/-- An access that is not 32 bits wide or selects no register writes nothing, reads 0 and changes the host's names only. -/
theorem hostOp_window_of_no_register (s : State) {off : BitVec 8} {bytes : Nat} (w : Word) (n : VarName)
    (h : bytes ≠ 4 ∨ regAt off = none) :
    hostOp (.busWrite (s.platform.regBase + off.setWidth 32) bytes w) s = .next s ∧
    ∃ t, hostOp (.busRead (s.platform.regBase + off.setWidth 32) bytes n) s = .next t ∧
      getVar t.host.vars n = 0 ∧ { t with host := s.host } = s := by
  refine ⟨?_, s.keep n 0, ?_, getVar_keep_same s n 0, rfl⟩
  · rw [hostOp_busWrite_window, writeWindow_eq_self w s h]
  · rw [hostOp_busRead_window, readWindow_eq_zero s h]

/-- Everything a bus write can do: a 32-bit write of one register, or nothing (10_state.md R32, R33). -/
theorem hostBusWrite_cases (a : Addr) (bytes : Nat) (w : Word) (s : State) :
    (∃ r, bytes = 4 ∧ a = regAddress s.platform r ∧ hostBusWrite a bytes w s = writeReg r w s) ∨
    hostBusWrite a bytes w s = s := by
  cases hoff : windowOffset s.platform a with
  | none => exact .inr (by simp [hostBusWrite, hoff])
  | some off =>
    have hwin : hostBusWrite a bytes w s = writeWindow off bytes w s := by simp [hostBusWrite, hoff]
    by_cases hb : bytes = 4
    · cases hreg : regAt off with
      | none => exact .inr (by rw [hwin, writeWindow_eq_self w s (.inr hreg)])
      | some r =>
        have ha : a = regAddress s.platform r := by
          rw [eq_of_windowOffset hoff, eq_offset_of_regAt hreg, regAddress]
        exact .inl ⟨r, hb, ha, by rw [hb, ha, hostBusWrite_regAddress]⟩
    · exact .inr (by rw [hwin, writeWindow_eq_self w s (.inl hb)])

/-! ### Writes of one register -/

theorem whenIdle_of_idle {s : State} (h : s.eng = .idle) (t : State) : whenIdle s t = t := by simp [whenIdle, h]

theorem whenIdle_of_busy {s : State} (h : s.eng = .busy) (t : State) : whenIdle s t = s := by simp [whenIdle, h]

/-- A write of INT_STAT clears CIP when bit 0 is 1 and changes nothing else (10_state.md R31). -/
theorem writeReg_intStat (w : Word) (s : State) :
    writeReg .intStat w s = { s with cip := s.cip && !w.getLsbD 0 } := by
  unfold writeReg writeIntStat
  cases w.getLsbD 0 <;> simp [acknowledge]

/-- The operand registers, which ignore writes while the engine is busy (10_state.md R25 to R28, R34). -/
abbrev operandRegs : List Reg := [.srcAddr, .srcLen, .dstAddr, .dstCap]

/-- The state with an operand register set; any other register is left alone. -/
def setOperand (r : Reg) (w : Word) (s : State) : State :=
  match r with
  | .srcAddr => { s with srcAddr := w }
  | .srcLen => { s with srcLen := w }
  | .dstAddr => { s with dstAddr := w }
  | .dstCap => { s with dstCap := w }
  | _ => s

/-- A write of an operand register sets it when the engine is idle (10_state.md R25 to R28, R34). -/
theorem writeReg_operand {r : Reg} (h : r ∈ operandRegs) (w : Word) (s : State) :
    writeReg r w s = whenIdle s (setOperand r w s) := by
  simp only [operandRegs, List.mem_cons, List.not_mem_nil, or_false] at h
  rcases h with rfl | rfl | rfl | rfl <;> rfl

theorem readReg_setOperand_same {r : Reg} (h : r ∈ operandRegs) (w : Word) (s : State) :
    readReg (setOperand r w s) r = w := by
  simp only [operandRegs, List.mem_cons, List.not_mem_nil, or_false] at h
  rcases h with rfl | rfl | rfl | rfl <;> rfl

theorem readReg_setOperand_other {r r' : Reg} (h : r' ≠ r) (w : Word) (s : State) :
    readReg (setOperand r w s) r' = readReg s r' := by
  cases r with
  | id | cmd | status | dstLen | intEn | intStat => rfl
  | srcAddr | srcLen | dstAddr | dstCap => cases r' <;> simp [readReg, setOperand, statusWord] at h ⊢

end Sys2Proof.Machine

/-! PROOFS. The statements about the register window (10_state.md R21 to R34, R43). -/

namespace Sys2Proof.Machine

/-! ### Operand, interrupt and hardwired registers -/

/-- Settles O21: the three writes are those of `writeReg_operand`, INT_EN and `writeReg_intStat`. -/
theorem operandWritesWhileBusyAreIgnored : Obligations.OperandWritesWhileBusyAreIgnored := by
  intro s w hb
  refine ⟨fun r hr => ?_, hostOp_busWrite_reg s .intEn w, ?_⟩
  · rw [hostOp_busWrite_reg, writeReg_operand hr, whenIdle_of_busy hb]
  · rw [hostOp_busWrite_reg, writeReg_intStat]

/-- Settles O22: an idle write is `setOperand`, which one read sees and every other read does not. -/
theorem operandRegistersReadBack : Obligations.OperandRegistersReadBack := by
  intro s r w n hi hr
  have hwrite : writeReg r w s = setOperand r w s := by rw [writeReg_operand hr, whenIdle_of_idle hi]
  have hplat : (setOperand r w s).platform = s.platform := by rw [← hwrite, writeReg_platform]
  refine ⟨setOperand r w s, (setOperand r w s).keep n w, ?_, ?_, getVar_keep_same _ n w,
    fun r' h => readReg_setOperand_other h w s, ?_, ?_, ?_, hplat, ?_⟩
  · rw [hostOp_busWrite_reg, hwrite]
  · rw [← hplat, hostOp_busRead_reg, readReg_setOperand_same hr]
  · rw [← hwrite, writeReg_mem]
  · cases r <;> rfl
  · cases r <;> rfl
  · rw [← hwrite, writeReg_host]

theorem readReg_intEn (s : State) : readReg s .intEn = if s.cie then 1 else 0 := by
  unfold readReg
  cases s.cie <;> rfl

theorem readReg_intStat (s : State) : readReg s .intStat = if s.cip then 1 else 0 := by
  unfold readReg
  cases s.cip <;> rfl

/-- Settles O23: the writes are those of INT_EN and `writeReg_intStat`, and each register reads as its one bit. -/
theorem interruptRegistersAndLine : Obligations.InterruptRegistersAndLine := by
  intro s w
  refine ⟨hostOp_busWrite_reg s .intEn w, ?_, readReg_intEn s, readReg_intStat s, Bool.and_eq_true_iff⟩
  rw [hostOp_busWrite_reg, writeReg_intStat]

/-- Settles O24: `readReg` does not look at the state for ID, and `writeReg` ignores the word. -/
theorem idIsHardwired : Obligations.IdIsHardwired :=
  fun s w => ⟨rfl, rfl, hostOp_busWrite_reg s .id w⟩

/-! ### STATUS -/

/-- Each bit of STATUS: the five flags, ERRCODE in 15:8, and 0 elsewhere (10_state.md R24). -/
theorem getLsbD_statusWord (s : State) (k : Nat) :
    (statusWord s).getLsbD k =
      if k = 0 then s.eng.busyBit else if k = 1 then s.status.done else if k = 2 then s.status.err
      else if k = 3 then s.status.tail else if k = 4 then s.status.cmdLost
      else decide (8 ≤ k) && (errCodeByte s.status.errCode).getLsbD (k - 8) := by
  unfold statusWord
  change BitVec.getLsbD (w := 16 + 8 + 3 + 1 + 1 + 1 + 1 + 1) _ k = _
  simp only [BitVec.getLsbD_append]
  match k with
  | 0 | 1 | 2 | 3 | 4 => simp
  | j + 5 =>
    by_cases hr : j < 3
    · simp [hr]
    · have hj : j + 5 - 8 = j - 3 := by omega
      by_cases he : j - 3 < 8
      · simp [hr, he, hj]
        omega
      · simp [hr, he, hj, BitVec.getLsbD_of_ge _ _ (Nat.le_of_not_lt he)]

/-- Above the flags STATUS has ERRCODE in 15:8 and nothing else (10_state.md R24). -/
theorem getLsbD_statusWord_high (s : State) {k : Nat} (h : 5 ≤ k) :
    (statusWord s).getLsbD k = (decide (8 ≤ k) && (errCodeByte s.status.errCode).getLsbD (k - 8)) := by
  rw [getLsbD_statusWord, if_neg (by omega), if_neg (by omega), if_neg (by omega), if_neg (by omega), if_neg (by omega)]

theorem statusWord_errCode (s : State) : (statusWord s).extractLsb' 8 8 = errCodeByte s.status.errCode := by
  ext k hk
  simp [getLsbD_statusWord_high s (k := 8 + k) (by omega), BitVec.getLsbD_eq_getElem hk]

theorem statusWord_bits_7_5 (s : State) : (statusWord s).extractLsb' 5 3 = 0 := by
  ext k hk
  have hlow : ¬8 ≤ 5 + k := by omega
  simp [getLsbD_statusWord_high s (k := 5 + k) (by omega), hlow]

theorem statusWord_bits_31_16 (s : State) : (statusWord s).extractLsb' 16 16 = 0 := by
  ext k hk
  have hhigh : (errCodeByte s.status.errCode).getLsbD (16 + k - 8) = false := BitVec.getLsbD_of_ge _ _ (by omega)
  simp [getLsbD_statusWord_high s (k := 16 + k) (by omega), hhigh]

/-- Settles O25: the flags are the bits of `getLsbD_statusWord`, the codes those of `errCodeByte`. -/
theorem statusWordShowsItsFields : Obligations.StatusWordShowsItsFields := by
  intro s w
  refine ⟨?_, getLsbD_statusWord s 1, getLsbD_statusWord s 2, getLsbD_statusWord s 3, getLsbD_statusWord s 4,
    statusWord_bits_7_5 s, statusWord_bits_31_16 s, ?_, hostOp_busWrite_reg s .status w,
    hostOp_busWrite_reg s .dstLen w⟩
  · rw [getLsbD_statusWord]
    cases s.eng <;> rfl
  · intro c n hmem hc
    rw [statusWord_errCode, hc]
    exact (show ∀ p ∈ _, errCodeByte p.1 = p.2 by decide) _ hmem
/-! ### Reserved, odd and side-effect-free accesses -/

/-- Settles O26: a reserved offset selects no register. -/
theorem reservedOffsetsReadZero : Obligations.ReservedOffsetsReadZero :=
  fun s _ _ w n h => hostOp_window_of_no_register s w n (.inr (regAt_eq_none_of_reserved h))

/-- Settles O27: a misaligned offset selects no register. -/
theorem oddRegisterAccessesReadZeroAndWriteNothing : Obligations.OddRegisterAccessesReadZeroAndWriteNothing :=
  fun s _ _ w n h => hostOp_window_of_no_register s w n (h.imp_right regAt_eq_none_of_misaligned)

/-- Settles O28: a read of the window is `State.keep`. -/
theorem registerReadsHaveNoSideEffect : Obligations.RegisterReadsHaveNoSideEffect := by
  intro s n
  refine ⟨fun r => ⟨_, hostOp_busRead_reg s r n, getVar_keep_same s n _, rfl⟩, rfl, rfl, rfl, rfl, rfl, rfl, rfl, rfl,
    readReg_intEn s, readReg_intStat s, fun off bytes => ?_⟩
  exact ⟨_, hostOp_busRead_window s off bytes n, rfl, rfl, rfl, fun m hm => getVar_keep_other s _ hm⟩

end Sys2Proof.Machine

/-! PROOFS. What a step can do to the flags (10_state.md R35, R36, 40_control.md R120 to R122, 70_reset_and_hazards.md R300,
R301), and the statements that follow from it. -/

namespace Sys2Proof.Machine

/-! ### Moves that leave the flags alone -/

/-- `t` has the engine state, STATUS, DST_LEN, CIP and CMD of `s`: what 10_state.md R36 says few events write. -/
structure SameFlags (s t : State) : Prop where
  eng : t.eng = s.eng
  status : t.status = s.status
  dstLen : t.dstLen = s.dstLen
  cip : t.cip = s.cip
  cmd : t.cmd = s.cmd

theorem SameFlags.refl (s : State) : SameFlags s s := ⟨rfl, rfl, rfl, rfl, rfl⟩

/-- The registers whose write changes no flag are all but CMD and INT_STAT (10_state.md R36). -/
theorem writeReg_sameFlags {r : Reg} (hc : r ≠ .cmd) (hi : r ≠ .intStat) (w : Word) (s : State) :
    SameFlags s (writeReg r w s) := by
  cases r with
  | cmd => exact absurd rfl hc
  | intStat => exact absurd rfl hi
  | id | status | dstLen | intEn => exact ⟨rfl, rfl, rfl, rfl, rfl⟩
  | srcAddr | srcLen | dstAddr | dstCap =>
    rw [writeReg_operand (by decide), whenIdle]
    split <;> exact ⟨rfl, rfl, rfl, rfl, rfl⟩

/-- What a move of the host can do to the flags: a 32-bit write of CMD, a 32-bit write of INT_STAT, or nothing (10_state.md
R36). -/
inductive HostEffect (op : HostOp) (s t : State) : Prop where
  | cmd (w : Word) (hop : op = .busWrite (regAddress s.platform .cmd) 4 w) (ht : t = writeCmd w s)
  | intStat (w : Word) (hop : op = .busWrite (regAddress s.platform .intStat) 4 w) (ht : t = writeReg .intStat w s)
  | flagless (hf : SameFlags s t) (hm : Memory.wf s.mem → Memory.wf t.mem)

theorem hostOp_effect {op : HostOp} {s t : State} (h : hostOp op s = .next t) : HostEffect op s t := by
  rcases hostOp_cases op s with ⟨f, hop⟩ | ⟨a, bytes, w, hw, hop⟩ | ⟨a, v, -, hop⟩ | ⟨n, w, k, hop⟩ | ⟨pc, hop⟩ <;>
    rw [hop] at h <;> cases h
  · rcases hostBusWrite_cases a bytes w s with ⟨r, rfl, rfl, hr⟩ | hr
    · by_cases hc : r = .cmd
      · subst hc
        exact .cmd w hw hr
      · by_cases hi : r = .intStat
        · subst hi
          exact .intStat w hw hr
        · rw [hr]
          exact .flagless (writeReg_sameFlags hc hi w s) (by rw [writeReg_mem]; exact id)
    · rw [hr]
      exact .flagless (.refl s) id
  · exact .flagless ⟨rfl, rfl, rfl, rfl, rfl⟩ fun hm => Memory.wf_write hm a v
  · exact .flagless ⟨rfl, rfl, rfl, rfl, rfl⟩ id
  · exact .flagless ⟨rfl, rfl, rfl, rfl, rfl⟩ id

/-- Settles O29: of the effects a move of the host can have, two are excluded and the third leaves the flags alone. -/
theorem onlyCmdAndIntStatWritesTouchFlags : Obligations.OnlyCmdAndIntStatWritesTouchFlags := by
  intro op s t h hcmd hint
  cases hostOp_effect h with
  | cmd w hop => exact absurd hop (hcmd w)
  | intStat w hop => exact absurd hop (hint w)
  | flagless hf => exact ⟨hf.eng, hf.status, hf.dstLen, hf.cip, hf.cmd⟩

/-! ### Completion and reset -/

/-- `t` is `s` after the engine completed its command, with an error or with an output written (40_control.md R120). -/
def Completes (s t : State) : Prop :=
  (∃ code, t = completeErr s code) ∨
  ∃ out : Output, t = completeOk s { out := out, mem := s.mem.writeBytes s.dstAddr out.bytes }

/-- Whatever word is in CMD, performing it completes it. -/
theorem performCommand_completes {s t : State} (h : performCommand s = .next t) : Completes s t := by
  rcases performCommand_cases s with hp | ⟨i, -, hp⟩
  · rw [hp] at h
    cases h
    exact .inl ⟨_, rfl⟩
  · rcases exec_cases i s with ⟨code, he⟩ | ⟨out, he, -⟩ <;> rw [hp, he] at h <;> cases h
    · exact .inl ⟨code, rfl⟩
    · exact .inr ⟨out, rfl⟩

theorem Completes.done {s t : State} (h : Completes s t) : t.eng = .idle ∧ t.status.done = true ∧ t.cip = true := by
  rcases h with ⟨code, rfl⟩ | ⟨out, rfl⟩ <;> exact ⟨rfl, rfl, rfl⟩

/-- Reset is the reset of the registers over a memory that differs in the destination window of a running command only
(70_reset_and_hazards.md R300, R301). -/
theorem resetCore_eq (s : State) :
    ∃ u, resetCore s = resetRegisters u ∧ (s.eng = .idle → u.mem = s.mem) ∧
      (∀ a, s.inDestination a = false → u.mem.read a = s.mem.read a) ∧ (Memory.wf s.mem → Memory.wf u.mem) := by
  cases h : s.eng with
  | idle => exact ⟨s, by simp [resetCore, h], fun _ => rfl, fun _ _ => rfl, id⟩
  | busy => exact ⟨s.drawDestination, by simp [resetCore, h], by simp, fun _ => drawDestination_outside s, drawDestination_wf⟩

theorem resetCore_eng (s : State) : (resetCore s).eng = .idle := by
  obtain ⟨u, hu, -⟩ := resetCore_eq s
  rw [hu, resetRegisters_eng]

theorem statusWord_resetRegisters (s : State) : statusWord (resetRegisters s) = 0 := by
  change statusWord State.reset = 0
  decide

/-! ### One step -/

/-- What the host's step can do to the flags: nothing after its last statement, else what its next move can do. -/
theorem hostStep_cases {s t : State} (h : hostStep s = .next t) :
    t = s ∨ ∃ op, s.host.prog[s.host.pc]? = some op ∧ HostEffect op (s.goTo (s.host.pc + 1)) t := by
  unfold hostStep at h
  split at h
  · next op hop => exact .inr ⟨op, hop, hostOp_effect h⟩
  · cases h
    exact .inl rfl

/-- What one step can do: the engine idles or completes its command, the host idles or makes its next move, or the core is
reset (40_control.md R120, 00_scope.md R14, 70_reset_and_hazards.md R300). -/
inductive StepEffect (s t : State) : Prop where
  | rest (ht : t = popTurn s)
  | completion (hturn : nextTurn s = .engine) (hb : s.eng = .busy) (ht : Completes (popTurn s) t)
  | host (hturn : nextTurn s = .host) (op : HostOp) (hop : s.host.prog[s.host.pc]? = some op)
      (ht : HostEffect op ((popTurn s).goTo (s.host.pc + 1)) t)
  | reset (hturn : nextTurn s = .reset) (ht : t = resetCore (popTurn s))

theorem step_effect {s t : State} (h : step s = .next t) : StepEffect s t := by
  cases hturn : nextTurn s with
  | engine =>
    cases hb : s.eng with
    | idle =>
      simp only [step, hturn, turnStep, engineStep, popTurn_eng, hb] at h
      cases h
      exact .rest rfl
    | busy => exact .completion hturn hb (performCommand_completes (step_engine hb hturn ▸ h))
  | host =>
    rw [step, hturn, turnStep] at h
    rcases hostStep_cases h with ht | ⟨op, hop, ht⟩
    · exact .rest ht
    · exact .host hturn op hop ht
  | reset =>
    rw [step, hturn, turnStep] at h
    cases h
    exact .reset hturn rfl

/-! ### The invariant -/

/-- The invariant speaks of the memory, the engine, STATUS and DST_LEN only. -/
theorem MachineInv.congr {s t : State} (h : MachineInv s) (hm : Memory.wf t.mem) (he : t.eng = s.eng)
    (hs : t.status = s.status) (hd : t.dstLen = s.dstLen) : MachineInv t where
  memory := hm
  busy := by rw [he, hs]; exact h.busy
  err := by rw [hs]; exact h.err
  tail := by rw [hs]; exact h.tail
  fresh := by rw [hs, hd]; exact h.fresh
  failed := by rw [hs, hd]; exact h.failed

theorem Completes.inv {s t : State} (h : Completes s t) (hm : Memory.wf s.mem) : MachineInv t := by
  rcases h with ⟨code, rfl⟩ | ⟨out, rfl⟩
  · refine ⟨completeErr_wf hm code, ?_, ?_, ?_, ?_, ?_⟩ <;> simp [Status.completedErr]
  · refine ⟨Memory.wf_writeBytes hm _ _, ?_, ?_, ?_, ?_, ?_⟩ <;> simp [Status.completedOk]

/-- A CMD write is accepted with all flags cleared, or sets CMD_LOST, of which the invariant does not speak (40_control.md
R121, R122). -/
theorem writeCmd_inv {s : State} (h : MachineInv s) (w : Word) : MachineInv (writeCmd w s) := by
  unfold writeCmd
  split
  · refine ⟨h.memory, ?_, ?_, ?_, ?_, ?_⟩ <;> simp [Status.reset]
  · exact ⟨h.memory, h.busy, h.err, h.tail, h.fresh, h.failed⟩

theorem resetRegisters_inv {s : State} (h : Memory.wf s.mem) : MachineInv (resetRegisters s) := by
  refine ⟨h, ?_, ?_, ?_, ?_, ?_⟩ <;> simp [Status.reset]

theorem resetCore_inv {s : State} (h : Memory.wf s.mem) : MachineInv (resetCore s) := by
  obtain ⟨u, hu, -, -, hwf⟩ := resetCore_eq s
  exact hu ▸ resetRegisters_inv (hwf h)

theorem HostEffect.inv {op : HostOp} {s t : State} (h : HostEffect op s t) (hs : MachineInv s) : MachineInv t := by
  cases h with
  | cmd w hop ht => exact ht ▸ writeCmd_inv hs w
  | intStat w hop ht =>
    rw [ht, writeReg_intStat]
    exact hs.congr hs.memory rfl rfl rfl
  | flagless hf hm => exact hs.congr (hm hs.memory) hf.eng hf.status hf.dstLen

/-- Settles O32: each effect of a step keeps the invariant. -/
theorem everyStepKeepsTheInvariant : Obligations.EveryStepKeepsTheInvariant := by
  intro s t hs h
  have hpop : MachineInv (popTurn s) := hs.congr hs.memory rfl rfl rfl
  cases step_effect h with
  | rest ht => exact ht ▸ hpop
  | completion hturn hb ht => exact ht.inv hpop.memory
  | host hturn op hop ht => exact ht.inv (hpop.congr hpop.memory rfl rfl rfl)
  | reset hturn ht => exact ht ▸ resetCore_inv hpop.memory

/-- Settles O33: the state after reset is a reset of itself. -/
theorem resetStateMeetsTheInvariant : Obligations.ResetStateMeetsTheInvariant :=
  resetRegisters_inv (s := State.reset) Memory.wf_nil

/-- Settles O34: the registers are those of `resetRegisters`, the memory is what `resetCore_eq` says. -/
theorem resetRestoresTheRegisters : Obligations.ResetRestoresTheRegisters := by
  intro s hturn
  obtain ⟨u, hu, hidle, hout, -⟩ := resetCore_eq (popTurn s)
  refine ⟨resetRegisters u, by rw [step, hturn, turnStep, hu], ?_⟩
  exact ⟨rfl, rfl, statusWord_resetRegisters u, rfl, rfl, rfl, rfl, rfl, rfl, rfl, rfl, rfl, hidle, hout⟩

/-! ### When the engine becomes busy, and when idle -/

/-- Only a CMD write of the host makes an idle engine busy (10_state.md R35). -/
theorem HostEffect.cmd_of_busy {op : HostOp} {s t : State} (h : HostEffect op s t) (hi : s.eng = .idle)
    (hb : t.eng = .busy) : op = .busWrite (regAddress s.platform .cmd) 4 t.cmd := by
  cases h with
  | cmd w hop ht =>
    have hcmd : t.cmd = w := by rw [ht, writeCmd, hi]; rfl
    rw [hop, hcmd]
  | intStat w hop ht =>
    rw [ht, writeReg_intStat] at hb
    exact absurd (hi.symm.trans hb) (by decide)
  | flagless hf => exact absurd (hi.symm.trans (hf.eng.symm.trans hb)) (by decide)

/-- No move of the host ends a running command. -/
theorem HostEffect.eng_of_busy {op : HostOp} {s t : State} (h : HostEffect op s t) (hb : s.eng = .busy) :
    t.eng = .busy := by
  cases h with
  | cmd w hop ht => rw [ht, writeCmd, hb]; exact hb
  | intStat w hop ht => rw [ht, writeReg_intStat]; exact hb
  | flagless hf => exact hf.eng.trans hb

/-- Settles O37: of the effects of a step, a CMD write alone starts the engine; a completion and a reset alone stop it. -/
theorem engineStateChangesOnlyByIssueCompletionOrReset :
    Obligations.EngineStateChangesOnlyByIssueCompletionOrReset := by
  intro s t h
  have hne : Engine.idle ≠ .busy := by decide
  cases step_effect h with
  | rest ht =>
    have he : t.eng = s.eng := by rw [ht, popTurn_eng]
    exact ⟨fun hi hb => absurd (hi.symm.trans (he.symm.trans hb)) hne,
      fun hb hi => absurd (hi.symm.trans (he.trans hb)) hne⟩
  | completion hturn hb ht => exact ⟨fun hi => absurd (hi.symm.trans hb) hne, fun _ _ => .inr ⟨hturn, ht.done.2⟩⟩
  | host hturn op hop ht =>
    exact ⟨fun hi hb => ⟨hturn, t.cmd, rfl, hop.trans (congrArg some (ht.cmd_of_busy hi hb))⟩,
      fun hb hi => absurd (hi.symm.trans (ht.eng_of_busy hb)) hne⟩
  | reset hturn ht =>
    exact ⟨fun _ hb => absurd ((resetCore_eng _).symm.trans (ht ▸ hb)) hne, fun _ _ => .inl hturn⟩

/-! ### Two runs of one command -/

/-- What Perform answers depends on the operands, the memory and the platform only (10_state.md R42). -/
theorem performData_congr (f : List Byte → Nat → Except ErrCode Output) {s₁ s₂ : State}
    (hsa : s₁.srcAddr = s₂.srcAddr) (hsl : s₁.srcLen = s₂.srcLen) (hda : s₁.dstAddr = s₂.dstAddr)
    (hdc : s₁.dstCap = s₂.dstCap) (hm : s₁.mem = s₂.mem) (hp : s₁.platform = s₂.platform) :
    performData f s₁ = performData f s₂ := by
  simp only [performData, State.operands, hsa, hsl, hda, hdc, hm, hp]

/-- Two completions of one result agree in all that the result decides. -/
theorem complete_agree (s₁ s₂ : State) (r : Except ErrCode Performed) :
    (complete s₁ r).dstLen = (complete s₂ r).dstLen ∧
      (complete s₁ r).status.err = (complete s₂ r).status.err ∧
      (complete s₁ r).status.tail = (complete s₂ r).status.tail ∧
      (complete s₁ r).status.errCode = (complete s₂ r).status.errCode ∧
      ((complete s₁ r).status.err = false → (complete s₁ r).mem = (complete s₂ r).mem) := by
  cases r with
  | ok p => exact ⟨rfl, rfl, rfl, rfl, fun _ => rfl⟩
  | error code => exact ⟨rfl, rfl, rfl, rfl, fun h => absurd h (by simp [complete, Status.completedErr])⟩

/-- Settles O35: both states complete the same result of Perform. -/
theorem resultsDoNotDependOnEarlierCommands : Obligations.ResultsDoNotDependOnEarlierCommands := by
  intro i s₁ s₂ hsa hsl hda hdc hm hp
  by_cases hi : i = .nop
  · subst hi
    exact ⟨_, _, exec_nop s₁, hm ▸ exec_nop s₂, complete_agree s₁ s₂ (.ok { out := ⟨[], false⟩, mem := s₁.mem })⟩
  · have hr := performData_congr (commandFunction i) hsa hsl hda hdc hm hp
    refine ⟨_, _, exec_data hi s₁, exec_data hi s₂, ?_⟩
    rw [runData, runData, hr]
    exact complete_agree s₁ s₂ (performData (commandFunction i) s₂)

end Sys2Proof.Machine

/-! PROOFS. Command words (30_encoding.md R90, R91, R99): what `decode` answers, and the statements that follow from it. -/

namespace Sys2Proof

/-- The opcode map and `Instr.opcode` are inverse to each other (30_encoding.md R91). -/
theorem instrOfOpcode_eq_some_iff (op : BitVec 8) (i : Instr) : instrOfOpcode op = some i ↔ op = i.opcode := by
  revert op
  cases i <;> decide

/-- The assigned opcodes are those up to 0x05 (30_encoding.md R91). -/
theorem exists_opcode_iff (op : BitVec 8) : (∃ i : Instr, op = i.opcode) ↔ op.toNat ≤ 0x05 := by
  constructor
  · rintro ⟨i, rfl⟩
    cases i <;> decide
  · intro h
    have hop : op = BitVec.ofNat 8 op.toNat := by simp
    rw [hop]
    generalize op.toNat = k at h
    interval_cases k
    exacts [⟨.nop, rfl⟩, ⟨.hufEnc, rfl⟩, ⟨.hufDec, rfl⟩, ⟨.lzEnc, rfl⟩, ⟨.lzDec, rfl⟩, ⟨.hufCodes, rfl⟩]

/-- A word decodes to `i` when RSVD is zero and OPCODE is the opcode of `i` (30_encoding.md R90). -/
theorem decode_eq_ok_iff (w : Word) (i : Instr) : decode w = .ok i ↔ rsvdField w = 0 ∧ opcodeField w = i.opcode := by
  rw [← instrOfOpcode_eq_some_iff, decode]
  by_cases hr : rsvdField w = 0
  · rw [if_pos hr]
    cases instrOfOpcode (opcodeField w) <;> simp [hr]
  · rw [if_neg hr]
    exact iff_of_false (by simp) fun h => hr h.1

/-- The zero extension of an 8-bit field is the word with that OPCODE and a zero RSVD (30_encoding.md R90, R91). -/
theorem eq_setWidth_iff_fields (w : Word) (op : BitVec 8) :
    w = op.setWidth 32 ↔ rsvdField w = 0 ∧ opcodeField w = op := by
  have hw := w.isLt
  have hop := op.isLt
  have hzero : (0 : BitVec 24).toNat = 0 := rfl
  simp only [← BitVec.toNat_inj, BitVec.extractLsb'_toNat, BitVec.toNat_setWidth, Nat.shiftRight_eq_div_pow, hzero]
  omega

/-- Settles O1: a word decodes when its two fields are those of some command. -/
theorem legalWordsHaveZeroReservedBitsAndAssignedOpcode :
    Obligations.LegalWordsHaveZeroReservedBitsAndAssignedOpcode := by
  intro w
  simp only [decode_eq_ok_iff, exists_and_left, exists_opcode_iff]

/-- Settles O2: decoding to `i` and being the word of `i` both fix the two fields. -/
theorem decodingIsInverseToEncoding : Obligations.DecodingIsInverseToEncoding := fun w i =>
  (decode_eq_ok_iff w i).trans (eq_setWidth_iff_fields w i.opcode).symm

@[simp] theorem decode_encode (i : Instr) : decode (encode i) = .ok i :=
  (decodingIsInverseToEncoding (encode i) i).mpr rfl

/-- Settles O3: six of the words are encodings, and three are illegal. -/
theorem opcodeWordsDecodeAsListed : Obligations.OpcodeWordsDecodeAsListed :=
  ⟨decode_encode .nop, decode_encode .hufEnc, decode_encode .hufDec, decode_encode .lzEnc, decode_encode .lzDec,
    decode_encode .hufCodes, rfl, rfl, rfl⟩

end Sys2Proof

/-! PROOFS. Host statements (30_encoding.md R101) and dump records (R95). -/

namespace Sys2Proof.Machine

/-- The `k`-th byte of a MEM statement is written at the `k`-th address from `a` (30_encoding.md R101). -/
theorem memWrites_eq_mapIdx (a : Addr) (bytes : List Byte) :
    memWrites a bytes = bytes.mapIdx fun k b => HostOp.memWrite (a + BitVec.ofNat 32 k) b := by
  induction bytes generalizing a with
  | nil => rfl
  | cons b bs ih =>
    have haddr (k : Nat) : a + BitVec.ofNat 32 (k + 1) = a + 1 + BitVec.ofNat 32 k := by
      rw [BitVec.ofNat_add, BitVec.add_comm (BitVec.ofNat 32 k), ← BitVec.add_assoc]
      rfl
    have hzero : a + BitVec.ofNat 32 0 = a := BitVec.add_zero a
    rw [memWrites, ih, List.mapIdx_cons, hzero]
    simp only [haddr]

/-- Settles O60: the register statements by definition, MEM by `memWrites_eq_mapIdx`. -/
theorem statementsAssembleToTheirTransactions : Obligations.StatementsAssembleToTheirTransactions :=
  fun p _ r _ _ a bytes =>
    ⟨rfl, rfl, congrArg some (memWrites_eq_mapIdx a bytes), windowOffset_regBase_add p r.offset, regAt_offset r⟩

/-- The record of no code is the record of the empty code (30_encoding.md R95). -/
theorem codeRecord_eq (code : Option Bits) :
    codeRecord code = BitVec.ofNat 8 (code.getD []).length :: packInto Config.codeBytes (code.getD []) := by
  cases code <;> rfl

/-- Settles O45: after its length byte, a record is the code packed into 32 bytes. -/
theorem codeRecordHoldsLengthAndBits : Obligations.CodeRecordHoldsLengthAndBits := by
  intro code hlen
  refine ⟨length_codeRecord code, ?_, fun q hq => ?_⟩
  · have hlt : (code.getD []).length < 256 := by
      cases code with
      | none => decide
      | some bits => exact Nat.lt_succ_of_le (hlen bits rfl)
    simp [codeRecord_eq, Nat.mod_eq_of_lt hlt]
  · rw [codeRecord_eq, Nat.add_comm, List.getElem?_cons_succ]
    exact getLsbD_packInto Config.codeBytes (code.getD []) hq

end Sys2Proof.Machine

/-! PROOFS. The codes of an input (41_huffman_tree.md R141, R144, R150, R151): every byte that occurs has a code, and no code is
empty. So a non-empty input has a non-empty bit stream (42_huffman_codec.md R183). -/

namespace Sys2Proof.Machine

/-! ### The leaves of the built tree -/

/-- The table holds each byte value that occurs, with its count (41_huffman_tree.md R141). -/
theorem mem_table (freq : Byte → Nat) (e : Entry) : e ∈ table freq ↔ 1 ≤ freq e.sym ∧ e.freq = freq e.sym := by
  simp only [table, List.mem_map, List.mem_filter, mem_allBytes, true_and, decide_eq_true_eq]
  constructor
  · rintro ⟨b, hb, rfl⟩
    exact ⟨hb, rfl⟩
  · rintro ⟨hb, hf⟩
    exact ⟨e.sym, hb, by rw [← hf]⟩

/-- The bytes of the table of an input are the bytes of the input (41_huffman_tree.md R140, R141). -/
theorem mem_map_sym_table_freqCount (src : List Byte) (b : Byte) :
    b ∈ (table (freqCount src)).map Entry.sym ↔ b ∈ src := by
  rw [List.mem_map, ← List.one_le_count_iff]
  constructor
  · rintro ⟨e, he, rfl⟩
    exact ((mem_table _ e).mp he).1
  · exact fun h => ⟨⟨b, freqCount src b⟩, (mem_table _ _).mpr ⟨h, rfl⟩, rfl⟩

/-- Merging keeps the leaves, and enough fuel merges the whole set (41_huffman_tree.md R144, R148). -/
theorem leaves_mergeAll_perm (fuel : Nat) (t : Tree) (ts : List Tree) (h : ts.length ≤ fuel) :
    (mergeAll fuel t ts).leaves.Perm ((t :: ts).flatMap Tree.leaves) := by
  induction fuel generalizing t ts with
  | zero => simp [mergeAll, List.length_eq_zero_iff.mp (Nat.le_zero.mp h)]
  | succ fuel ih =>
    have hmin := extractMin_perm t ts
    have hlen := length_extractMin t ts
    rw [mergeAll]
    generalize extractMin t ts = x at hmin hlen
    obtain ⟨a, _ | ⟨r, rs⟩⟩ := x
    · simpa using hmin.flatMap_right Tree.leaves
    · have hmin' := extractMin_perm r rs
      have hlen' := length_extractMin r rs
      dsimp only
      generalize extractMin r rs = y at hmin' hlen' ⊢
      obtain ⟨c, rest⟩ := y
      simp only [List.length_cons] at hlen hlen' hmin hmin' ⊢
      have hnodes : (a :: c :: rest).Perm (t :: ts) := (hmin'.cons a).trans hmin
      have hmerge : (mergeAll fuel (merge a c) rest).leaves.Perm ((a :: c :: rest).flatMap Tree.leaves) := by
        simpa [merge, Tree.leaves] using ih (merge a c) rest (by omega)
      exact hmerge.trans (hnodes.flatMap_right Tree.leaves)

/-- The leaves of the built tree are the table's entries (41_huffman_tree.md R144). -/
theorem leaves_buildTree_perm {tbl : List Entry} {root : Tree} (h : buildTree tbl = some root) :
    root.leaves.Perm tbl := by
  cases tbl with
  | nil => simp [buildTree] at h
  | cons e es =>
    cases h
    have hp := leaves_mergeAll_perm (es.length + 1) (.leaf e.sym e.freq) (es.map fun e' => .leaf e'.sym e'.freq) (by simp)
    have hleaves : ∀ l : List Entry, (l.map fun e' => Tree.leaf e'.sym e'.freq).flatMap Tree.leaves = l := fun l => by
      simp [List.flatMap_map, Tree.leaves]
    exact hp.trans (.of_eq (hleaves (e :: es)))

/-! ### Codes -/

theorem mem_of_codeOf_eq_some {t : CodeTable} {b : Byte} {bits : Bits} (h : codeOf t b = some bits) : (b, bits) ∈ t := by
  induction t with
  | nil => simp [codeOf] at h
  | cons p t ih =>
    rw [codeOf] at h
    split at h
    · next hb =>
      cases h
      exact hb ▸ List.mem_cons_self
    · exact List.mem_cons_of_mem p (ih h)

theorem exists_codeOf_eq_some {t : CodeTable} {b : Byte} (h : b ∈ t.map Prod.fst) : ∃ bits, codeOf t b = some bits := by
  induction t with
  | nil => simp at h
  | cons p t ih =>
    rw [codeOf]
    split
    · exact ⟨p.2, rfl⟩
    · next hb => exact ih ((List.mem_cons.mp h).resolve_left fun he => hb he.symm)

/-- The walk meets the leaves from left to right (41_huffman_tree.md R150). -/
theorem map_fst_walkCodes (t : Tree) (path : Bits) : (walkCodes t path).map Prod.fst = t.leaves.map Entry.sym := by
  induction t generalizing path with
  | leaf b f => rfl
  | node b f l r ihl ihr => simp [walkCodes, Tree.leaves, ihl, ihr]

@[simp] theorem map_fst_codes (t : Tree) : (codes t).map Prod.fst = t.leaves.map Entry.sym := by
  cases t with
  | leaf b f => rfl
  | node b f l r => exact map_fst_walkCodes _ _

/-- A code extends the path to where its walk begins (41_huffman_tree.md R150). -/
theorem path_isPrefix_of_mem_walkCodes {t : Tree} {path : Bits} {p : Byte × Bits} (h : p ∈ walkCodes t path) :
    path <+: p.2 := by
  induction t generalizing path with
  | leaf b f => rw [List.mem_singleton.mp h]
  | node b f l r ihl ihr =>
    rcases List.mem_append.mp h with h | h
    · exact List.IsPrefix.trans ⟨[false], rfl⟩ (ihl h)
    · exact List.IsPrefix.trans ⟨[true], rfl⟩ (ihr h)

/-- No code is empty: a root that is a leaf has the code "0", and every other leaf lies below the root (41_huffman_tree.md R150,
R151). -/
theorem codes_ne_nil {t : Tree} {p : Byte × Bits} (h : p ∈ codes t) : p.2 ≠ [] := by
  cases t with
  | leaf b f =>
    rw [List.mem_singleton.mp h]
    exact List.cons_ne_nil _ _
  | node b f l r =>
    rcases List.mem_append.mp h with h | h <;> exact (path_isPrefix_of_mem_walkCodes h).ne_nil (List.cons_ne_nil _ _)

/-- The code table of an input has a non-empty code for every byte of the input (41_huffman_tree.md R150, R151). -/
theorem exists_codeOf_codeTable {src : List Byte} {b : Byte} (h : b ∈ src) :
    ∃ bits, codeOf (codeTable src) b = some bits ∧ bits ≠ [] := by
  have hb := (mem_map_sym_table_freqCount src b).mpr h
  cases htree : buildTree (table (freqCount src)) with
  | none =>
    cases htbl : table (freqCount src) with
    | nil => simp [htbl] at hb
    | cons e es => simp [htbl, buildTree] at htree
  | some root =>
    have hcodes : codeTable src = codes root := by simp [codeTable, htree]
    have hleaf : b ∈ (codes root).map Prod.fst := by
      rw [map_fst_codes]
      exact ((leaves_buildTree_perm htree).map Entry.sym).mem_iff.mpr hb
    obtain ⟨bits, hbits⟩ := exists_codeOf_eq_some hleaf
    exact ⟨bits, hcodes ▸ hbits, codes_ne_nil (mem_of_codeOf_eq_some hbits)⟩

/-- The code of each byte adds a bit at least (42_huffman_codec.md R183). -/
theorem length_le_length_bitStream (src : List Byte) : src.length ≤ (bitStream (codeTable src) src).length := by
  have hcode : ∀ n ∈ src.map fun b => ((codeOf (codeTable src) b).getD []).length, 1 ≤ n := by
    intro n hn
    obtain ⟨b, hb, rfl⟩ := List.mem_map.mp hn
    obtain ⟨bits, hbits, hne⟩ := exists_codeOf_codeTable hb
    rw [hbits]
    exact List.length_pos_iff.mpr hne
  have hsum := List.card_nsmul_le_sum _ 1 hcode
  simpa [bitStream, List.length_flatMap] using hsum

end Sys2Proof.Machine

/-! PROOFS. The bytes of a container (30_encoding.md R93, R97, 42_huffman_codec.md R185). -/

namespace Sys2Proof.Machine

@[simp] theorem length_pack (bits : Bits) : (pack bits).length = ceilDiv bits.length 8 :=
  length_packInto _ bits

/-- A stream of at least one bit fills all bytes but the last, and `usableBits` of the last (42_huffman_codec.md R185). -/
theorem usableBits_spec {t : Nat} (h : 1 ≤ t) :
    1 ≤ usableBits t ∧ usableBits t ≤ 8 ∧ 1 ≤ ceilDiv t 8 ∧ t = 8 * (ceilDiv t 8 - 1) + usableBits t := by
  unfold usableBits ceilDiv
  split <;> omega

theorem header_eq (t : Nat) (tbl : List Entry) :
    header t tbl = BitVec.ofNat 8 (usableBits t) :: BitVec.ofNat 8 (tbl.length % 256) :: tableBytes tbl := rfl

@[simp] theorem tableBytes_cons (e : Entry) (tbl : List Entry) :
    tableBytes (e :: tbl) = e.sym :: le32 e.freq ++ tableBytes tbl := rfl

@[simp] theorem length_tableBytes (tbl : List Entry) : (tableBytes tbl).length = 5 * tbl.length := by
  induction tbl with
  | nil => rfl
  | cons e tbl ih =>
    simp [ih]
    omega

/-- Entries are 5 bytes each (30_encoding.md R93). -/
theorem drop_tableBytes (tbl : List Entry) (k : Nat) : (tableBytes tbl).drop (5 * k) = tableBytes (tbl.drop k) := by
  induction k generalizing tbl with
  | zero => rfl
  | succ k ih =>
    cases tbl with
    | nil => simp [tableBytes]
    | cons e tbl => simpa [Nat.mul_succ, le32] using ih tbl

@[simp] theorem length_header (t : Nat) (tbl : List Entry) : (header t tbl).length = 2 + 5 * tbl.length := by
  simp [header_eq]
  omega

/-- From its `k`-th entry on, a header followed by a payload holds that entry first (30_encoding.md R93). -/
theorem drop_header_append {tbl : List Entry} {k : Nat} {e : Entry} (h : tbl[k]? = some e) (t : Nat) (pay : List Byte) :
    (header t tbl ++ pay).drop (2 + 5 * k) = e.sym :: le32 e.freq ++ (tableBytes (tbl.drop (k + 1)) ++ pay) := by
  obtain ⟨hk, rfl⟩ := List.getElem?_eq_some_iff.mp h
  have hle : 2 + 5 * k ≤ (header t tbl).length := by
    rw [length_header]
    omega
  rw [List.drop_append_of_le_length hle, header_eq, Nat.add_comm, List.drop_succ_cons, List.drop_succ_cons,
    drop_tableBytes, List.drop_eq_getElem_cons hk, tableBytes_cons, List.append_assoc]

/-- What HUF_ENC answers for a non-empty input (42_huffman_codec.md R180). -/
theorem eq_of_hufEncode_eq_ok {src ct : List Byte} {dc : Nat} (hne : src ≠ []) (h : hufEncode src dc = .ok ct) :
    ct = header (bitStream (codeTable src) src).length (table (freqCount src)) ++
      pack (bitStream (codeTable src) src) := by
  rw [hufEncode, if_neg hne] at h
  dsimp only at h
  split at h
  · cases h
  · exact (Except.ok.inj h).symm

/-- A count of an input below 2^32 bytes fits its four bytes (41_huffman_tree.md R140). -/
theorem freq_lt_of_mem_table {src : List Byte} (h : src.length < 2 ^ 32) {e : Entry}
    (he : e ∈ table (freqCount src)) : e.freq < 2 ^ 32 := by
  rw [((mem_table _ e).mp he).2]
  exact Nat.lt_of_le_of_lt List.count_le_length h

/-- Settles O47: the container is header and payload; its bytes from entry `k` on are what `drop_header_append` says. -/
theorem containerLayout : Obligations.ContainerLayout := by
  intro src ct dc hne hlen henc
  rw [eq_of_hufEncode_eq_ok hne henc]
  generalize hbits : bitStream (codeTable src) src = bits
  have hpos : 1 ≤ bits.length := hbits ▸ (List.length_pos_iff.mpr hne).trans_le (length_le_length_bitStream src)
  obtain ⟨hu1, hu8, hp, ht⟩ := usableBits_spec hpos
  refine ⟨⟨BitVec.ofNat 8 (usableBits bits.length), ceilDiv bits.length 8, rfl, ?_⟩, ?_, fun k e hk => ?_, ?_⟩
  · have hu : (BitVec.ofNat 8 (usableBits bits.length)).toNat = usableBits bits.length :=
      BitVec.toNat_ofNat _ _ ▸ Nat.mod_eq_of_lt (by omega)
    rw [hu]
    exact ⟨hu1, hu8, hp, by simp, ht⟩
  · simp [header_eq]
  · have hdrop := drop_header_append hk bits.length (pack bits)
    have hfreq := rdle32_le32 (freq_lt_of_mem_table hlen (List.mem_of_getElem? hk))
    generalize header bits.length (table (freqCount src)) ++ pack bits = ct at hdrop
    have hget (j : Nat) : ct[j + 2 + 5 * k]? = (ct.drop (2 + 5 * k))[j]? := by
      rw [List.getElem?_drop]
      congr 1
      omega
    rw [hdrop] at hget
    simp only [List.getD_eq_getElem?_getD]
    rw [hget 1, hget 2, hget 3, hget 4]
    exact ⟨by simpa using hget 0, hfreq⟩
  · rw [← length_header bits.length, List.drop_left]

end Sys2Proof.Machine

/-! PROOFS. What the function of a command answers (40_control.md R126): at most DST_CAP bytes, and TAIL for
LZ_DEC only. -/

namespace Sys2Proof.Machine

/-! ### Results of Except -/

theorem exists_of_bind_eq_ok {α β : Type} {x : Except ErrCode α} {f : α → Except ErrCode β} {b : β}
    (h : x >>= f = .ok b) : ∃ a, x = .ok a ∧ f a = .ok b := by
  cases x with
  | error e => cases h
  | ok a => exact ⟨a, rfl, h⟩

theorem exists_of_map_eq_ok {α β : Type} {x : Except ErrCode α} {f : α → β} {b : β} (h : x.map f = .ok b) :
    ∃ a, x = .ok a ∧ f a = b := by
  cases x with
  | error e => cases h
  | ok a => exact ⟨a, rfl, Except.ok.inj h⟩

/-! ### The length of each function's output -/

theorem length_le_of_hufEncode_eq_ok {src ct : List Byte} {dc : Nat} (h : hufEncode src dc = .ok ct) :
    ct.length ≤ dc := by
  by_cases hne : src = []
  · rw [hufEncode, if_pos hne] at h
    cases h
    exact Nat.zero_le dc
  · rw [hufEncode, if_neg hne] at h
    dsimp only at h
    split at h
    · cases h
    · next hfit =>
      cases h
      simpa using hfit

/-- A walk that succeeds emits as many bytes as it was asked for (42_huffman_codec.md R193). -/
theorem length_of_walkTree_eq_ok {root t : Tree} {bits left : Bits} {need : Nat} {out : List Byte}
    (h : walkTree root t bits need = .ok (out, left)) : out.length = need := by
  fun_induction walkTree root t bits need generalizing out left with
  | case1 => cases h; rfl
  | case2 | case3 => cases h
  | case4 _ _ _ _ _ _ hroot _ ih | case5 _ _ _ _ _ _ _ _ hroot _ _ _ ih =>
    subst hroot
    obtain ⟨⟨rest, _⟩, hrest, hout⟩ := exists_of_bind_eq_ok h
    cases hout
    rw [List.length_cons, ih hrest]
  | case6 _ _ _ _ _ _ _ _ hroot _ ih =>
    subst hroot
    exact ih h

theorem length_le_of_hufDecode_eq_ok {c out : List Byte} {dc : Nat} (h : hufDecode c dc = .ok out) :
    out.length ≤ dc := by
  by_cases hne : c = []
  · rw [hufDecode, if_pos hne] at h
    cases h
    exact Nat.zero_le dc
  · rw [hufDecode, if_neg hne] at h
    obtain ⟨p, -, h⟩ := exists_of_bind_eq_ok h
    split at h
    · cases h
    · next hfit =>
      split at h
      · cases h
      · split at h
        · cases h
        · next hwalk =>
          cases h
          rw [length_of_walkTree_eq_ok hwalk]
          exact Nat.le_of_not_lt hfit
        · cases h

theorem length_le_of_lzEncode_eq_ok {src out : List Byte} {dc : Nat} (h : lzEncode src dc = .ok out) :
    out.length ≤ dc := by
  unfold lzEncode at h
  dsimp only at h
  split at h
  · cases h
  · next hfit =>
    cases h
    exact Nat.le_of_not_lt hfit

/-- The loop of LzDecode keeps its output within DST_CAP (44_lz77_tuple.md R247). -/
theorem length_le_of_lzDecodeFrom_eq_ok {dc : Nat} {rout c : List Byte} {out : Output} (hr : rout.length ≤ dc)
    (h : lzDecodeFrom dc rout c = .ok out) : out.bytes.length ≤ dc := by
  fun_induction lzDecodeFrom dc rout c with
  | case1 | case2 => cases h
  | case3 _ _ _ _ _ _ hfit ih => exact ih (by simpa using hfit) h
  | case4 => cases h; simpa using hr

/-- When HUF_CODES answers, the dump fits DST_CAP, and it is one record per byte value (41_huffman_tree.md R157). -/
theorem eq_of_hufCodesDump_eq_ok {src : List Byte} {dc : Nat} {out : Output} (h : hufCodesDump src dc = .ok out) :
    Config.codesDumpLen ≤ dc ∧
      out = { bytes := allBytes.flatMap fun b => codeRecord (codeOf (codeTable src) b), tail := false } := by
  unfold hufCodesDump at h
  split at h
  · cases h
  · next hfit => exact ⟨Nat.le_of_not_lt hfit, (Except.ok.inj h).symm⟩

/-- A dump is 256 records of 33 bytes (30_encoding.md R95). -/
theorem length_flatMap_codeRecord (code : Byte → Option Bits) :
    (allBytes.flatMap fun b => codeRecord (code b)).length = Config.codesDumpLen := by
  simp only [List.length_flatMap, length_codeRecord, List.map_const', List.sum_replicate, length_allBytes]
  rfl

/-- F_op of every command answers at most DST_CAP bytes (40_control.md R126). -/
theorem length_le_of_commandFunction_eq_ok {i : Instr} {src : List Byte} {dc : Nat} {out : Output}
    (h : commandFunction i src dc = .ok out) : out.bytes.length ≤ dc := by
  cases i with
  | nop => cases h; exact Nat.zero_le dc
  | hufEnc =>
    obtain ⟨ct, hct, rfl⟩ := exists_of_map_eq_ok h
    exact length_le_of_hufEncode_eq_ok hct
  | hufDec =>
    obtain ⟨bs, hbs, rfl⟩ := exists_of_map_eq_ok h
    exact length_le_of_hufDecode_eq_ok hbs
  | lzEnc =>
    obtain ⟨bs, hbs, rfl⟩ := exists_of_map_eq_ok h
    exact length_le_of_lzEncode_eq_ok hbs
  | lzDec => exact length_le_of_lzDecodeFrom_eq_ok (rout := []) (Nat.zero_le dc) h
  | hufCodes =>
    obtain ⟨hfit, rfl⟩ := eq_of_hufCodesDump_eq_ok h
    exact (length_flatMap_codeRecord _).trans_le hfit

/-- TAIL is LZ_DEC's alone (44_lz77_tuple.md R246). -/
theorem tail_eq_false_of_commandFunction_eq_ok {i : Instr} (hi : i ≠ .lzDec) {src : List Byte} {dc : Nat}
    {out : Output} (h : commandFunction i src dc = .ok out) : out.tail = false := by
  cases i with
  | nop => cases h; rfl
  | hufEnc | hufDec | lzEnc =>
    obtain ⟨_, -, rfl⟩ := exists_of_map_eq_ok h
    rfl
  | lzDec => exact absurd rfl hi
  | hufCodes =>
    obtain ⟨-, rfl⟩ := eq_of_hufCodesDump_eq_ok h
    rfl

end Sys2Proof.Machine

/-! PROOFS. The control commands, acceptance and completion (40_control.md R120 to R126): the statements that follow
from what the engine's step and a CMD write do. -/

namespace Sys2Proof.Machine

/-! ### The engine's step -/

/-- Settles O4: `performCommand` runs the command that CMD decodes to. -/
theorem engineTurnRunsTheDecodedCommand : Obligations.EngineTurnRunsTheDecodedCommand := by
  intro s i hb hturn hdec
  have hperform : performCommand (popTurn s) = exec i (popTurn s) := by
    rw [performCommand, popTurn_cmd, hdec]
  exact (step_engine hb hturn).trans hperform

/-- Settles O5: a word that decodes has neither a reserved bit nor a reserved opcode, so the engine answers
ILLEGAL_CMD. -/
theorem illegalWordCompletesWithIllegalCmd : Obligations.IllegalWordCompletesWithIllegalCmd := by
  intro s hb hturn hword
  rw [step_engine hb hturn]
  rcases performCommand_cases (popTurn s) with hp | ⟨i, hdec, -⟩
  · exact hp
  · obtain ⟨hrsvd, hop⟩ := (legalWordsHaveZeroReservedBitsAndAssignedOpcode s.cmd).mp ⟨i, hdec⟩
    rcases hword with hne | hge
    · exact absurd hrsvd hne
    · omega

/-- Settles O7: `exec_nop` is the completion with no output and the memory as it was. -/
theorem nopCompletesWithSuccess : Obligations.NopCompletesWithSuccess :=
  fun s => exec_nop s

/-! ### Completion -/

/-- With legal windows and no bus error on the reads, a data command whose function errs completes with that error
(40_control.md R126). -/
theorem runData_eq_completeErr {f : List Byte → Nat → Except ErrCode Output} {s : State} {e : ErrCode}
    (hw : WindowsLegal s) (hr : CleanReads s) (hf : f s.sourceBytes s.dstCap.toNat = .error e) :
    runData f s = completeErr s e := by
  rw [runData, performData_of_reads hw hr, hf, complete]

/-- Settles O11: the function's error is the completion's, and `completeErr_failedWith` says what that leaves. -/
theorem functionErrorIsTheCommandsError : Obligations.FunctionErrorIsTheCommandsError := by
  intro i s e hi hw hr hf
  refine ⟨completeErr s e, ?_, completeErr_failedWith s e⟩
  rw [exec_data hi, runData_eq_completeErr hw hr hf]

/-- Every command, NOP included, completes with an error or with what its function answers; only a legal destination
window is written (40_control.md R120, R126). -/
theorem exec_function_cases (i : Instr) (s : State) :
    (∃ code, exec i s = .next (completeErr s code)) ∨
    ∃ src out, commandFunction i src s.dstCap.toNat = .ok out ∧ (out.bytes = [] ∨ WindowsLegal s) ∧
      exec i s = .next (completeOk s { out := out, mem := s.mem.writeBytes s.dstAddr out.bytes }) := by
  by_cases hi : i = .nop
  · subst hi
    exact .inr ⟨[], ⟨[], false⟩, rfl, .inl rfl, exec_nop s⟩
  · rw [exec_data hi]
    rcases runData_cases (commandFunction i) s with ⟨code, he⟩ | ⟨out, he, hw, src, hf⟩
    · exact .inl ⟨code, by rw [he]⟩
    · exact .inr ⟨src, out, hf, .inr hw, by rw [he]⟩

/-- Output bytes that fit the destination window, when it is legal, change no byte outside it (20_memory.md R66). -/
theorem read_writeBytes_outside_destination {s : State} {bs : List Byte} (hw : bs = [] ∨ WindowsLegal s)
    (hlen : bs.length ≤ s.dstCap.toNat) {a : Addr} (ha : s.inDestination a = false) :
    (s.mem.writeBytes s.dstAddr bs).read a = s.mem.read a := by
  rcases hw with rfl | ⟨-, hdst, -⟩
  · rfl
  · have hout := (inDestination_eq_false_iff s a).mp ha
    apply Memory.read_writeBytes_outside
    · simp only [Config.addrSpace]
      omega
    · omega

theorem completeOk_sameSetup (s : State) (r : Performed) : SameSetup s (completeOk s r) := by
  constructor <;> rfl

/-- Settles O6: both completions keep the setup; the bytes a success writes fit DST_CAP, and TAIL is LZ_DEC's. -/
theorem everyCommandCompletesWithinItsFrame : Obligations.EveryCommandCompletesWithinItsFrame := by
  intro i s
  rcases exec_function_cases i s with ⟨code, he⟩ | ⟨src, out, hf, hw, he⟩
  · have hfail := completeErr_failedWith s code
    refine ⟨_, he, hfail.setup, rfl, rfl, rfl, ?_, fun _ => rfl, ?_, rfl, hfail.outside⟩
    · simp [Status.completedErr]
    · exact fun htail => absurd htail Bool.false_ne_true
  · refine ⟨_, he, completeOk_sameSetup s _, rfl, rfl, rfl, ?_, ?_, fun htail => ⟨?_, rfl⟩, rfl, fun a ha =>
      read_writeBytes_outside_destination hw (length_le_of_commandFunction_eq_ok hf) ha⟩
    · simp [Status.completedOk]
    · exact fun herr => absurd herr Bool.false_ne_true
    · by_contra hi
      exact Bool.false_ne_true ((tail_eq_false_of_commandFunction_eq_ok hi hf).symm.trans htail)

/-! ### CMD writes -/

/-- Settles O19: an idle write of CMD is `accept`, after which STATUS shows BUSY alone. -/
theorem cmdWriteWhileIdleIsAccepted : Obligations.CmdWriteWhileIdleIsAccepted := by
  intro s w hi
  have hwrite : writeReg .cmd w s = accept w s := by rw [writeReg, writeCmd, hi]
  refine ⟨accept w s, by rw [hostOp_busWrite_reg, hwrite], ?_, rfl⟩
  rw [statusWord, accept_status, accept_eng]
  decide

/-- Settles O20: a busy write of CMD is `loseCommand`. -/
theorem cmdWriteWhileBusyIsLost : Obligations.CmdWriteWhileBusyIsLost := by
  intro s w hb
  have hwrite : writeReg .cmd w s = loseCommand s := by rw [writeReg, writeCmd, hb]
  rw [hostOp_busWrite_reg, hwrite]
  rfl

end Sys2Proof.Machine

/-! PROOFS. The frequency table (41_huffman_tree.md R140, R141). -/

namespace Sys2Proof.Machine

/-- The byte values are listed in ascending order. -/
theorem pairwise_toNat_lt_allBytes : allBytes.Pairwise fun x y => x.toNat < y.toNat := by
  rw [allBytes, List.pairwise_map]
  refine List.pairwise_lt_range.imp_of_mem fun {i j} hi hj hij => ?_
  have hi' : i < 256 := List.mem_range.mp hi
  have hj' : j < 256 := List.mem_range.mp hj
  rw [BitVec.toNat_ofNat, BitVec.toNat_ofNat, Nat.mod_eq_of_lt hi', Nat.mod_eq_of_lt hj']
  exact hij

theorem nodup_of_pairwise_toNat_lt {l : List Byte} (h : l.Pairwise fun x y => x.toNat < y.toNat) : l.Nodup :=
  h.imp fun hlt heq => Nat.ne_of_lt hlt (congrArg BitVec.toNat heq)

/-- Every table is as the rules have it: the syms ascend, and every count is at least 1 (41_huffman_tree.md R141). -/
theorem tableLegal_table (freq : Byte → Nat) : TableLegal (table freq) := by
  constructor
  · rw [table, List.pairwise_map]
    exact pairwise_toNat_lt_allBytes.filter _
  · intro e he
    obtain ⟨hpos, hfreq⟩ := (mem_table freq e).mp he
    exact hfreq ▸ hpos

theorem TableLegal.nodup_sym {tbl : List Entry} (h : TableLegal tbl) : (tbl.map Entry.sym).Nodup :=
  nodup_of_pairwise_toNat_lt (List.pairwise_map.mpr h.1)

/-- There are 256 byte values, so a table of distinct syms has at most 256 entries (41_huffman_tree.md R141). -/
theorem length_le_of_nodup_sym {tbl : List Entry} (h : (tbl.map Entry.sym).Nodup) : tbl.length ≤ 256 := by
  have hsub := (List.subperm_of_subset h fun b _ => mem_allBytes b).length_le
  rwa [List.length_map, length_allBytes] at hsub

theorem table_freqCount_eq_nil_iff (src : List Byte) : table (freqCount src) = [] ↔ src = [] := by
  rw [← List.map_eq_nil_iff (f := Entry.sym), List.eq_nil_iff_forall_not_mem, List.eq_nil_iff_forall_not_mem]
  simp only [mem_map_sym_table_freqCount]

/-- A sum over the input is the sum over its table, each entry counted as often as its byte occurs (41_huffman_tree.md R154). -/
theorem sum_map_eq_sum_table (src : List Byte) (f : Byte → Nat) :
    (src.map f).sum = ((table (freqCount src)).map fun e => e.freq * f e.sym).sum := by
  have hnodup : (allBytes.filter fun b => decide (freqCount src b ≥ 1)).Nodup :=
    nodup_of_pairwise_toNat_lt (pairwise_toNat_lt_allBytes.filter _)
  have hset : src.toFinset = (allBytes.filter fun b => decide (freqCount src b ≥ 1)).toFinset := by
    ext b
    simp [mem_allBytes, freqCount, List.one_le_count_iff]
  rw [Finset.sum_list_map_count, hset, List.sum_toFinset _ hnodup, table, List.map_map]
  rfl

/-- Settles O39: the table of an input is a legal table with the entries of `mem_table`; its counts are a sum of ones. -/
theorem tableListsTheAlphabet : Obligations.TableListsTheAlphabet := by
  intro src
  have hlegal := tableLegal_table (freqCount src)
  refine ⟨hlegal, fun b f => ?_, table_freqCount_eq_nil_iff src, length_le_of_nodup_sym hlegal.nodup_sym, ?_⟩
  · rw [mem_table, and_comm]
    exact and_congr_right fun _ => List.one_le_count_iff
  · have hsum := sum_map_eq_sum_table src fun _ => 1
    simpa [totalFreq] using hsum.symm

end Sys2Proof.Machine

/-! PROOFS. BuildTree (41_huffman_tree.md R143 to R149): it runs the loop of merges, and the set of nodes decides what the loop
gives. -/

namespace Sys2Proof.Machine

/-! ### Trees -/

/-- A tree has one internal node less than leaves (41_huffman_tree.md R148). -/
theorem internalNodes_add_one (t : Tree) : t.internalNodes + 1 = t.leaves.length := by
  induction t with
  | leaf b f => rfl
  | node b f l r ihl ihr =>
    rw [Tree.leaves, Tree.internalNodes, List.length_append]
    omega

theorem length_leaves_pos (t : Tree) : 0 < t.leaves.length :=
  internalNodes_add_one t ▸ Nat.succ_pos _

/-- In a consistent tree every node carries the sym of its leftmost leaf, a leaf its own (41_huffman_tree.md R146). -/
theorem Tree.Consistent.sym_eq_leftmost {t : Tree} (h : t.Consistent) : t.sym = t.leftmost := by
  cases t with
  | leaf b f => rfl
  | node b f l r =>
    obtain ⟨-, hsym, -⟩ := h
    exact hsym

/-! ### The loop of merges -/

/-- With enough fuel, `mergeAll` is the loop of merges (41_huffman_tree.md R144). -/
theorem mergesTo_mergeAll (fuel : Nat) (t : Tree) (ts : List Tree) (h : ts.length ≤ fuel) :
    MergesTo (t :: ts) (mergeAll fuel t ts) := by
  induction fuel generalizing t ts with
  | zero =>
    rw [List.length_eq_zero_iff.mp (Nat.le_zero.mp h)]
    exact .done t
  | succ fuel ih =>
    have hmin := extractMin_perm t ts
    have hleast := extractMin_least t ts
    have hlen := length_extractMin t ts
    rw [mergeAll]
    generalize extractMin t ts = x at hmin hleast hlen
    obtain ⟨a, _ | ⟨r, rs⟩⟩ := x
    · rw [← List.singleton_perm.mp hmin]
      exact .done a
    · have hmin' := extractMin_perm r rs
      have hleast' := extractMin_least r rs
      have hlen' := length_extractMin r rs
      dsimp only at hmin hleast hlen ⊢
      generalize extractMin r rs = y at hmin' hleast' hlen' ⊢
      obtain ⟨c, rest⟩ := y
      dsimp only at hmin' hleast' hlen' ⊢
      have hac : ∀ x ∈ c :: rest, KeyLe a x := fun x hx => hleast x (hmin'.mem_iff.mp hx)
      rw [List.length_cons] at hlen
      exact .merge _ rest a c _ (hmin.symm.trans (hmin'.symm.cons a)) (hac c List.mem_cons_self)
        (fun x hx => ⟨hac x (List.mem_cons_of_mem c hx), hleast' x hx⟩) (ih (merge a c) rest (by omega))

/-- Every merge makes a consistent node of consistent ones (41_huffman_tree.md R144, R146). -/
theorem MergesTo.consistent {nodes : List Tree} {root : Tree} (h : MergesTo nodes root)
    (hnodes : ∀ x ∈ nodes, x.Consistent) : root.Consistent := by
  induction h with
  | done root => exact hnodes root List.mem_cons_self
  | merge nodes rest a c root hperm _ _ _ ih =>
    have hall : ∀ x ∈ a :: c :: rest, x.Consistent := fun x hx => hnodes x (hperm.mem_iff.mpr hx)
    simp only [List.forall_mem_cons] at hall
    obtain ⟨ha, hc, hrest⟩ := hall
    exact ih (List.forall_mem_cons.mpr ⟨⟨rfl, ha.sym_eq_leftmost, ha, hc⟩, hrest⟩)

/-! ### Only the set of nodes matters -/

theorem KeyLe.sym_eq {x y : Tree} (hxy : KeyLe x y) (hyx : KeyLe y x) : x.sym = y.sym := by
  unfold KeyLe at hxy hyx
  exact BitVec.eq_of_toNat_eq (by omega)

/-- Among nodes of distinct syms the one of smallest key is unique (41_huffman_tree.md R147). -/
theorem least_unique {a a' : Tree} {l l' : List Tree} (hperm : (a :: l).Perm (a' :: l'))
    (hnodup : ((a :: l).map Tree.sym).Nodup) (hleast : ∀ x ∈ l, KeyLe a x) (hleast' : ∀ x ∈ l', KeyLe a' x) :
    a = a' ∧ l.Perm l' := by
  have ha : a ∈ a' :: l' := hperm.mem_iff.mp List.mem_cons_self
  have ha' : a' ∈ a :: l := hperm.mem_iff.mpr List.mem_cons_self
  have hle : KeyLe a a' := (List.mem_cons.mp ha').elim (fun h => h ▸ .refl a') (hleast a')
  have hle' : KeyLe a' a := (List.mem_cons.mp ha).elim (fun h => h ▸ .refl a) (hleast' a)
  have heq : a = a' := List.inj_on_of_nodup_map hnodup List.mem_cons_self ha' (hle.sym_eq hle')
  subst heq
  exact ⟨rfl, hperm.cons_inv⟩

theorem MergesTo.eq_of_singleton {t root : Tree} (h : MergesTo [t] root) : root = t := by
  cases h with
  | done => rfl
  | merge _ rest a c _ hperm => simpa using hperm.length_eq

/-- For nodes of distinct syms the loop has one result, whatever order they stand in: both nodes of each merge are unique, and
the merged node takes the sym of one of them (41_huffman_tree.md R147, R149). -/
theorem MergesTo.unique {nodes nodes' : List Tree} {root root' : Tree} (h : MergesTo nodes root)
    (h' : MergesTo nodes' root') (hperm : nodes.Perm nodes') (hnodup : (nodes.map Tree.sym).Nodup) : root = root' := by
  induction h generalizing nodes' with
  | done root =>
    rw [← List.singleton_perm.mp hperm] at h'
    exact h'.eq_of_singleton.symm
  | merge nodes rest a c root hac hle hrest hmerge ih =>
    cases h' with
    | done =>
      rw [List.perm_singleton.mp hperm] at hac
      simpa using hac.length_eq
    | merge _ rest' a' c' _ hac' hle' hrest' hmerge' =>
      have hnodup' : ((a :: c :: rest).map Tree.sym).Nodup := (hac.map Tree.sym).nodup_iff.mp hnodup
      have hpair : (a :: c :: rest).Perm (a' :: c' :: rest') := hac.symm.trans (hperm.trans hac')
      obtain ⟨rfl, hothers⟩ := least_unique hpair hnodup' (List.forall_mem_cons.mpr ⟨hle, fun x hx => (hrest x hx).1⟩)
        (List.forall_mem_cons.mpr ⟨hle', fun x hx => (hrest' x hx).1⟩)
      obtain ⟨rfl, hrests⟩ := least_unique hothers (List.nodup_cons.mp hnodup').2 (fun x hx => (hrest x hx).2)
        fun x hx => (hrest' x hx).2
      exact ih hmerge' (hrests.cons _) (hnodup'.sublist (((List.sublist_cons_self c rest).cons_cons a).map Tree.sym))

/-! ### BuildTree -/

theorem exists_buildTree {tbl : List Entry} (h : tbl ≠ []) : ∃ root, buildTree tbl = some root := by
  cases tbl with
  | nil => exact absurd rfl h
  | cons e es => exact ⟨_, rfl⟩

/-- BuildTree is the loop of merges on the table's leaves (41_huffman_tree.md R144). -/
theorem mergesTo_of_buildTree {tbl : List Entry} {root : Tree} (h : buildTree tbl = some root) :
    MergesTo (tbl.map fun e => .leaf e.sym e.freq) root := by
  cases tbl with
  | nil => cases h
  | cons e es =>
    cases h
    exact mergesTo_mergeAll _ _ _ (by simp)

/-- Settles O40: the loop of merges keeps leaves and consistency, and every tree has one internal node less than leaves. -/
theorem buildTreeHasTheTableAsLeaves : Obligations.BuildTreeHasTheTableAsLeaves := by
  intro tbl hne
  obtain ⟨root, hroot⟩ := exists_buildTree hne
  have hmerges := mergesTo_of_buildTree hroot
  have hleaves := leaves_buildTree_perm hroot
  refine ⟨root, hroot, hmerges, hleaves, (internalNodes_add_one root).trans hleaves.length_eq, hmerges.consistent ?_⟩
  intro x hx
  obtain ⟨e, -, rfl⟩ := List.mem_map.mp hx
  trivial

/-- Settles O41: the leaves of the two tables are one set of nodes, so `MergesTo.unique` applies. -/
theorem buildTreeIgnoresTheOrderOfTheTable : Obligations.BuildTreeIgnoresTheOrderOfTheTable := by
  intro t₁ t₂ hperm hnodup
  by_cases hne : t₁ = []
  · subst hne
    rw [hperm.nil_eq]
  · obtain ⟨r₁, h₁⟩ := exists_buildTree hne
    obtain ⟨r₂, h₂⟩ := exists_buildTree (tbl := t₂) fun h => hne (h ▸ hperm).eq_nil
    rw [h₁, h₂, (mergesTo_of_buildTree h₁).unique (mergesTo_of_buildTree h₂) (hperm.map _)]
    rwa [List.map_map]

end Sys2Proof.Machine

/-! PROOFS. The codes of a tree (41_huffman_tree.md R150 to R154): their lengths, that none begins another, their Kraft sum,
and the length of the bit stream. -/

namespace Sys2Proof.Machine

/-! ### The length of a code -/

/-- A step of Walk adds one bit to the path (41_huffman_tree.md R150). -/
theorem length_path_append (path : Bits) (bit : Bool) : (path ++ [bit]).length = path.length + 1 := by
  rw [List.length_append, List.length_singleton]

/-- The codes below a node add to the path to it fewer bits than the node has leaves: each step down leaves a leaf behind
(41_huffman_tree.md R152). -/
theorem length_lt_of_mem_walkCodes {t : Tree} {path : Bits} {p : Byte × Bits} (h : p ∈ walkCodes t path) :
    p.2.length < path.length + t.leaves.length := by
  induction t generalizing path with
  | leaf b f =>
    rw [List.mem_singleton.mp h]
    exact Nat.lt_succ_self _
  | node b f l r ihl ihr =>
    have hl := length_leaves_pos l
    have hr := length_leaves_pos r
    rw [Tree.leaves, List.length_append]
    rcases List.mem_append.mp h with h | h
    · have hp := ihl h
      rw [length_path_append] at hp
      omega
    · have hp := ihr h
      rw [length_path_append] at hp
      omega

/-- The code of a tree's symbol is shorter than the tree has leaves, except for the one bit of a leaf (41_huffman_tree.md R151,
R152). -/
theorem length_le_of_mem_codes {t : Tree} {p : Byte × Bits} (h : p ∈ codes t) :
    p.2.length ≤ max 1 (t.leaves.length - 1) := by
  cases t with
  | leaf b f =>
    rw [List.mem_singleton.mp h]
    exact Nat.le_max_left _ _
  | node b f l r =>
    have := length_lt_of_mem_walkCodes h
    rw [List.length_nil, Nat.zero_add] at this
    omega

/-- A tree of one leaf is a leaf. -/
theorem exists_eq_leaf {t : Tree} (h : t.leaves.length = 1) : ∃ b f, t = .leaf b f := by
  cases t with
  | leaf b f => exact ⟨b, f, rfl⟩
  | node b f l r =>
    have hl := length_leaves_pos l
    have hr := length_leaves_pos r
    rw [Tree.leaves, List.length_append] at h
    omega

theorem exists_codeOf_iff (t : CodeTable) (b : Byte) : (∃ bits, codeOf t b = some bits) ↔ b ∈ t.map Prod.fst :=
  ⟨fun ⟨bits, h⟩ => List.mem_map.mpr ⟨(b, bits), mem_of_codeOf_eq_some h, rfl⟩, exists_codeOf_eq_some⟩

/-- Settles O42: the codes are those of the leaves, and the leaves are the table's entries. -/
theorem codesHaveBoundedLength : Obligations.CodesHaveBoundedLength := by
  intro tbl root hnodup hroot
  have hleaves := leaves_buildTree_perm hroot
  refine ⟨fun b => ?_, fun b code hcode => ?_, fun hone b code hcode => ?_⟩
  · rw [exists_codeOf_iff, map_fst_codes, (hleaves.map Entry.sym).mem_iff]
  · have hmem := mem_of_codeOf_eq_some hcode
    have hpos : 0 < code.length := List.length_pos_iff.mpr (codes_ne_nil hmem)
    have hle : code.length ≤ max 1 (root.leaves.length - 1) := length_le_of_mem_codes hmem
    have hsize := length_le_of_nodup_sym hnodup
    rw [hleaves.length_eq] at hle
    exact ⟨hpos, hle, by omega⟩
  · obtain ⟨x, f, rfl⟩ := exists_eq_leaf (hleaves.length_eq.trans hone)
    exact congrArg Prod.snd (List.mem_singleton.mp (mem_of_codeOf_eq_some hcode))

/-! ### No code begins another, and the Kraft sum -/

/-- Neither code begins the other (41_huffman_tree.md R153). -/
def PrefixFree (p q : Byte × Bits) : Prop := ¬p.2 <+: q.2 ∧ ¬q.2 <+: p.2

/-- Of two strings that leave a path by different bits, none begins the other. -/
theorem not_isPrefix_of_branch {path x y : Bits} {c : Bool} (hx : path ++ [c] <+: x) (hy : path ++ [!c] <+: y) :
    ¬x <+: y := by
  intro hxy
  have heq := (List.prefix_of_prefix_length_le (hx.trans hxy) hy (by simp)).eq_of_length (by simp)
  simp at heq

/-- No code below a node begins another: those of the left subtree go on with "0", those of the right with "1"
(41_huffman_tree.md R153). -/
theorem pairwise_prefixFree_walkCodes (t : Tree) (path : Bits) : (walkCodes t path).Pairwise PrefixFree := by
  induction t generalizing path with
  | leaf b f => exact List.pairwise_singleton _ _
  | node b f l r ihl ihr =>
    refine List.pairwise_append.mpr ⟨ihl _, ihr _, fun p hp q hq => ?_⟩
    have hp' := path_isPrefix_of_mem_walkCodes hp
    have hq' := path_isPrefix_of_mem_walkCodes hq
    exact ⟨not_isPrefix_of_branch hp' hq', not_isPrefix_of_branch hq' hp'⟩

theorem pairwise_prefixFree_codes (t : Tree) : (codes t).Pairwise PrefixFree := by
  cases t with
  | leaf b f => exact List.pairwise_singleton _ _
  | node b f l r => exact pairwise_prefixFree_walkCodes _ _

/-- The Kraft sum of the codes below a node is that of the path to the node, with both sides times `2 ^ n` for an `n` that no
code exceeds (41_huffman_tree.md R153). -/
theorem kraftSum_walkCodes (t : Tree) (path : Bits) {n : Nat} (h : path.length + t.leaves.length ≤ n + 1) :
    ((walkCodes t path).map fun p => 2 ^ (n - p.2.length)).sum = 2 ^ (n - path.length) := by
  induction t generalizing path with
  | leaf b f => simp [walkCodes]
  | node b f l r ihl ihr =>
    have hl := length_leaves_pos l
    have hr := length_leaves_pos r
    rw [Tree.leaves, List.length_append] at h
    have hexp : n - path.length = n - (path.length + 1) + 1 := by omega
    have hl' := ihl (path ++ [false]) (by rw [length_path_append]; omega)
    have hr' := ihr (path ++ [true]) (by rw [length_path_append]; omega)
    rw [length_path_append] at hl' hr'
    rw [walkCodes, List.map_append, List.sum_append, hl', hr', hexp, pow_succ, mul_two]

/-- Settles O43: `pairwise_prefixFree_codes`, and the Kraft sum below the root, whose path is empty. -/
theorem codesArePrefixFreeWithKraftSumOne : Obligations.CodesArePrefixFreeWithKraftSumOne := by
  intro tbl root _ hroot
  have hlen := (leaves_buildTree_perm hroot).length_eq
  refine ⟨fun x y cx cy hx hy hne => ?_, fun htwo => ?_, fun hone => ?_⟩
  · have hsymm : Std.Symm PrefixFree := ⟨fun _ _ h => h.symm⟩
    have hfree : PrefixFree (x, cx) (y, cy) :=
      (pairwise_prefixFree_codes root).forall (mem_of_codeOf_eq_some hx) (mem_of_codeOf_eq_some hy)
        fun h => hne (congrArg Prod.fst h)
    exact hfree.1
  · cases root with
    | leaf b f =>
      rw [Tree.leaves, List.length_singleton] at hlen
      omega
    | node b f l r => exact kraftSum_walkCodes (.node b f l r) [] (by rw [hlen, List.length_nil]; omega)
  · obtain ⟨b, f, rfl⟩ := exists_eq_leaf (hlen.trans hone)
    rfl

/-! ### The length of the bit stream -/

theorem length_bitStream (code : CodeTable) (src : List Byte) :
    (bitStream code src).length = (src.map fun b => ((codeOf code b).getD []).length).sum := by
  rw [bitStream, List.length_flatMap]

/-- No code of an input is longer than 255 bits (41_huffman_tree.md R152). -/
theorem length_codeOf_codeTable_le (src : List Byte) (b : Byte) :
    ((codeOf (codeTable src) b).getD []).length ≤ 255 := by
  cases hcode : codeOf (codeTable src) b with
  | none => exact Nat.zero_le _
  | some code =>
    cases hroot : buildTree (table (freqCount src)) with
    | none => simp [codeTable, hroot, codeOf] at hcode
    | some root =>
      have hcodes : codeTable src = codes root := by simp [codeTable, hroot]
      obtain ⟨-, hlen, -⟩ := codesHaveBoundedLength _ root (tableLegal_table (freqCount src)).nodup_sym hroot
      obtain ⟨-, -, hle⟩ := hlen b code (hcodes ▸ hcode)
      exact hle

/-- Settles O44: the sum over the input is the sum over the table, and each of its terms is 1 to 255. -/
theorem totalBitCountIsTheWeightedCodeLength : Obligations.TotalBitCountIsTheWeightedCodeLength := by
  intro src _
  have hmax : (bitStream (codeTable src) src).length ≤ 255 * src.length := by
    have hsum := List.sum_le_card_nsmul (src.map fun b => ((codeOf (codeTable src) b).getD []).length) 255
      (List.forall_mem_map.mpr fun b _ => length_codeOf_codeTable_le src b)
    rwa [← length_bitStream, List.length_map, smul_eq_mul, Nat.mul_comm] at hsum
  refine ⟨?_, length_bitStream _ src, length_le_length_bitStream src, hmax, fun h => by omega⟩
  rw [length_bitStream]
  exact sum_map_eq_sum_table src _

end Sys2Proof.Machine

/-! PROOFS. HUF_CODES (41_huffman_tree.md R157). -/

namespace Sys2Proof.Machine

/-- In a sequence of parts of one length the parts before the `n`-th take `n` times that length. -/
theorem drop_flatMap_of_length {α β : Type} {f : α → List β} {k : Nat} (hf : ∀ x, (f x).length = k) (l : List α)
    (n : Nat) : (l.flatMap f).drop (k * n) = (l.drop n).flatMap f := by
  induction n generalizing l with
  | zero => rfl
  | succ n ih =>
    cases l with
    | nil => simp
    | cons x xs =>
      rw [List.flatMap_cons, Nat.mul_succ, Nat.add_comm, ← List.drop_drop, List.drop_left' (hf x), ih, List.drop_succ_cons]

theorem drop_allBytes (b : Byte) : ∃ after, allBytes.drop b.toNat = b :: after := by
  have hlt : b.toNat < allBytes.length := length_allBytes ▸ b.isLt
  have hget : allBytes[b.toNat] = b := by simp [allBytes]
  exact ⟨_, hget ▸ List.drop_eq_getElem_cons hlt⟩

/-- The record of byte value `b` is the `b`-th of the dump (30_encoding.md R95). -/
theorem take_drop_dump (code : Byte → Option Bits) (b : Byte) :
    ((allBytes.flatMap fun b => codeRecord (code b)).drop (33 * b.toNat)).take 33 = codeRecord (code b) := by
  obtain ⟨after, hafter⟩ := drop_allBytes b
  rw [drop_flatMap_of_length (fun x => length_codeRecord (code x)), hafter, List.flatMap_cons,
    List.take_left' (length_codeRecord (code b))]

/-- HUF_CODES answers the dump when DST_CAP has room for it (41_huffman_tree.md R157). -/
theorem hufCodesDump_eq_ok (src : List Byte) {dc : Nat} (h : Config.codesDumpLen ≤ dc) :
    hufCodesDump src dc =
      .ok { bytes := allBytes.flatMap fun b => codeRecord (codeOf (codeTable src) b), tail := false } :=
  if_neg (Nat.not_lt.mpr h)

/-- Settles O17: the function answers the dump, whose records `take_drop_dump` finds. -/
theorem hufCodesWritesTheDump : Obligations.HufCodesWritesTheDump := by
  intro s hm hw hr hclean hcap
  have hdump := length_flatMap_codeRecord (codeOf (codeTable s.sourceBytes))
  have hout := hufCodesDump_eq_ok s.sourceBytes hcap
  exact ⟨_, _, exec_data (by decide) s,
    runData_succeeds hm hw hr hout (hdump.trans_le hcap) (hdump.symm ▸ hclean), hdump, take_drop_dump _⟩

end Sys2Proof.Machine

/-! PROOFS. Pack and the usable bits of a payload (42_huffman_codec.md R184, R193, R194). -/

namespace Sys2Proof.Machine

/-- Settles O46: `pack` is `packInto` with as many bytes as the bits need. -/
theorem packPlacesBitsMsbFirst : Obligations.PackPlacesBitsMsbFirst := by
  intro bits
  refine ⟨length_pack bits, fun q hq => ?_⟩
  rw [length_pack] at hq
  exact getLsbD_packInto (ceilDiv bits.length 8) bits hq

@[simp] theorem length_bitsOfByte (b : Byte) : (bitsOfByte b).length = 8 := by
  rw [bitsOfByte, List.length_map, List.length_range]

@[simp] theorem length_flatMap_bitsOfByte (bytes : List Byte) : (bytes.flatMap bitsOfByte).length = 8 * bytes.length := by
  simp [List.length_flatMap, Nat.mul_comm]

/-- A packed byte holds the first eight bits, as far as there are any (42_huffman_codec.md R184, R193). -/
theorem take_bitsOfByte_byteOfBits (bits : Bits) : (bitsOfByte (byteOfBits bits)).take bits.length = bits.take 8 := by
  refine List.ext_getElem (by simp [Nat.min_comm]) fun k hk hk' => ?_
  rw [List.length_take, lt_min_iff] at hk'
  obtain ⟨hk8, hklen⟩ := hk'
  simp only [bitsOfByte, List.getElem_take, List.getElem_map, List.getElem_range, getLsbD_byteOfBits bits hk8,
    List.getD_eq_getElem bits false hklen]

/-- The bits of packed bytes begin with the bits that were packed (42_huffman_codec.md R184, R193). -/
theorem take_flatMap_bitsOfByte_packInto (n : Nat) (bits : Bits) (h : bits.length ≤ 8 * n) :
    ((packInto n bits).flatMap bitsOfByte).take bits.length = bits := by
  induction n generalizing bits with
  | zero => simp [List.length_eq_zero_iff.mp (Nat.le_zero.mp h)]
  | succ n ih =>
    have hrest := ih (bits.drop 8) (by rw [List.length_drop]; omega)
    rw [List.length_drop] at hrest
    rw [packInto, List.flatMap_cons, List.take_append, take_bitsOfByte_byteOfBits, length_bitsOfByte, hrest,
      List.take_append_drop]

/-- The usable bits of a packed stream are the stream (42_huffman_codec.md R185, R193). -/
theorem payloadBits_pack {bits : Bits} (h : 1 ≤ bits.length) : payloadBits (pack bits) (usableBits bits.length) = bits := by
  obtain ⟨-, -, hpos, hlen⟩ := usableBits_spec h
  have havail : availBits (pack bits).length (usableBits bits.length) = bits.length := by
    rw [length_pack, availBits, if_neg (Nat.ne_of_gt hpos), ← hlen]
  rw [payloadBits, havail]
  exact take_flatMap_bitsOfByte_packInto _ bits (by unfold ceilDiv; omega)

/-- All bits of a payload byte are usable, except in the last byte, where the first `u` are (42_huffman_codec.md R193). -/
theorem payloadBits_append_singleton (pay : List Byte) (x : Byte) (u : Nat) :
    payloadBits (pay ++ [x]) u = pay.flatMap bitsOfByte ++ (bitsOfByte x).take u := by
  have havail : availBits (pay ++ [x]).length u = (pay.flatMap bitsOfByte).length + u := by
    rw [length_flatMap_bitsOfByte, List.length_append, availBits, List.length_singleton, if_neg (Nat.succ_ne_zero _),
      Nat.add_sub_cancel]
  rw [payloadBits, havail, List.flatMap_append, List.flatMap_singleton, List.take_length_add_append]

/-- The first `u` bits of a byte are its bits 7 down to `8 - u`. -/
theorem take_bitsOfByte_congr {x y : Byte} {u : Nat} (h : ∀ k, k < u → k < 8 → x.getLsbD (7 - k) = y.getLsbD (7 - k)) :
    (bitsOfByte x).take u = (bitsOfByte y).take u := by
  refine List.ext_getElem (by simp) fun k hk _ => ?_
  rw [List.length_take, length_bitsOfByte, lt_min_iff] at hk
  simpa [bitsOfByte] using h k hk.1 hk.2

end Sys2Proof.Machine

/-! PROOFS. The header of a container (42_huffman_codec.md R191, R192). -/

namespace Sys2Proof.Machine

theorem symbolCount_eq (n : Byte) : symbolCount n = if n.toNat = 0 then 256 else n.toNat := by
  have hzero : n = 0 ↔ n.toNat = 0 := BitVec.toNat_inj (y := 0#8) |>.symm
  simp only [symbolCount, hzero]

/-! ### The table -/

/-- A legal table whose syms all lie above `prev`: the check of R191 from the entry after `prev` on. -/
def TableLegalAfter (prev : Option Byte) (tbl : List Entry) : Prop :=
  (∀ p ∈ prev, ∀ e ∈ tbl, p.toNat < e.sym.toNat) ∧ TableLegal tbl

theorem tableLegalAfter_none (tbl : List Entry) : TableLegalAfter none tbl ↔ TableLegal tbl := by
  simp [TableLegalAfter]

/-- Each sym need only be compared with the one before it. -/
theorem tableLegalAfter_cons (prev : Option Byte) (e : Entry) (tbl : List Entry) :
    TableLegalAfter prev (e :: tbl) ↔
      (∀ p ∈ prev, p.toNat < e.sym.toNat) ∧ e.freq ≠ 0 ∧ TableLegalAfter (some e.sym) tbl := by
  simp only [TableLegalAfter, TableLegal, List.pairwise_cons, List.forall_mem_cons, Option.mem_some_iff, forall_eq',
    Nat.one_le_iff_ne_zero]
  constructor
  · rintro ⟨hprev, ⟨hsym, hpair⟩, hfreq, hfreqs⟩
    exact ⟨fun p hp => (hprev p hp).1, hfreq, hsym, hpair, hfreqs⟩
  · rintro ⟨hprev, hfreq, hsym, hpair, hfreqs⟩
    exact ⟨fun p hp => ⟨hprev p hp, fun e' he' => (hprev p hp).trans (hsym e' he')⟩, ⟨hsym, hpair⟩, hfreq, hfreqs⟩

/-- The check of one table entry (42_huffman_codec.md R191). -/
theorem parseEntries_cons {e : Entry} (h : e.freq < 2 ^ 32) (n : Nat) (prev : Option Byte) (rest : List Byte) :
    parseEntries (n + 1) prev (e.sym :: le32 e.freq ++ rest) =
      if (∀ p ∈ prev, p.toNat < e.sym.toNat) ∧ e.freq ≠ 0 then
        (parseEntries n (some e.sym) rest).map fun p => (e :: p.1, p.2)
      else .error .hufTable := by
  have hprev : prev.any (fun p => decide (e.sym.toNat ≤ p.toNat)) = true ↔ ¬∀ p ∈ prev, p.toNat < e.sym.toNat := by
    cases prev <;> simp
  simp only [le32, List.cons_append, List.nil_append, parseEntries, rdle32_le32 h, hprev]
  by_cases hp : ∀ p ∈ prev, p.toNat < e.sym.toNat
  · by_cases hf : e.freq = 0
    · simp [hf]
    · rw [if_neg (not_not_intro hp), if_neg hf, if_pos ⟨hp, hf⟩]
      cases parseEntries n (some e.sym) rest <;> rfl
  · rw [if_pos hp, if_neg fun h => hp h.1]

/-- A whole table parses when it is legal (42_huffman_codec.md R191). -/
theorem parseEntries_tableBytes {tbl : List Entry} {prev : Option Byte} (hfreq : ∀ e ∈ tbl, e.freq < 2 ^ 32)
    (h : TableLegalAfter prev tbl) (pay : List Byte) :
    parseEntries tbl.length prev (tableBytes tbl ++ pay) = .ok (tbl, pay) := by
  induction tbl generalizing prev with
  | nil => rfl
  | cons e tbl ih =>
    obtain ⟨he, hfreq⟩ := List.forall_mem_cons.mp hfreq
    obtain ⟨hprev, hpos, hrest⟩ := (tableLegalAfter_cons prev e tbl).mp h
    rw [tableBytes_cons, List.append_assoc, List.length_cons, parseEntries_cons he, if_pos ⟨hprev, hpos⟩, ih hfreq hrest]
    rfl

/-- A whole table that is not legal is HUF_TABLE (42_huffman_codec.md R191). -/
theorem parseEntries_tableBytes_of_not_legal {tbl : List Entry} {prev : Option Byte}
    (hfreq : ∀ e ∈ tbl, e.freq < 2 ^ 32) (h : ¬TableLegalAfter prev tbl) (pay : List Byte) :
    parseEntries tbl.length prev (tableBytes tbl ++ pay) = .error .hufTable := by
  induction tbl generalizing prev with
  | nil => exact absurd ⟨by simp, List.Pairwise.nil, by simp⟩ h
  | cons e tbl ih =>
    obtain ⟨he, hfreq⟩ := List.forall_mem_cons.mp hfreq
    rw [tableBytes_cons, List.append_assoc, List.length_cons, parseEntries_cons he]
    split
    · next hentry =>
      rw [ih hfreq fun hrest => h ((tableLegalAfter_cons prev e tbl).mpr ⟨hentry.1, hentry.2, hrest⟩)]
      rfl
    · rfl

/-- Bytes after those of the table are payload (42_huffman_codec.md R191, R193). -/
theorem parseEntries_append {n : Nat} {prev : Option Byte} {rest : List Byte} (h : 5 * n ≤ rest.length)
    (more : List Byte) :
    parseEntries n prev (rest ++ more) = (parseEntries n prev rest).map fun p => (p.1, p.2 ++ more) := by
  fun_induction parseEntries n prev rest with
  | case1 => rfl
  | case2 n prev s b0 b1 b2 b3 rest hprev => simp [parseEntries, hprev, Except.map]
  | case3 n prev s b0 b1 b2 b3 rest hprev hzero => simp [parseEntries, hprev, hzero, Except.map]
  | case4 n prev s b0 b1 b2 b3 rest hprev hzero ih =>
    simp only [List.cons_append, parseEntries, if_neg hprev, if_neg hzero]
    rw [ih (by simp only [List.length_cons] at h; omega)]
    cases parseEntries n (some s) rest <;> rfl
  | case5 n prev rest hshort =>
    exfalso
    match rest, h with
    | s :: b0 :: b1 :: b2 :: b3 :: rest, _ => exact hshort s b0 b1 b2 b3 rest rfl
    | [], h | [_], h | [_, _], h | [_, _, _], h | [_, _, _, _], h =>
      simp only [List.length_cons, List.length_nil] at h
      omega

/-! ### The checks before and after it -/

theorem parseHeader_of_not_usable {u : Byte} (h : u.toNat = 0 ∨ 8 < u.toNat) (n : Byte) (rest : List Byte) :
    parseHeader (u :: n :: rest) = .error .hufUsableBits :=
  if_pos h

section

variable {u n : Byte} (hu1 : 1 ≤ u.toNat) (hu8 : u.toNat ≤ 8)
include hu1 hu8

theorem parseHeader_of_usable (rest : List Byte) :
    parseHeader (u :: n :: rest) =
      if rest.length < 5 * symbolCount n then .error .hufTruncated
      else (parseEntries (symbolCount n) none rest).map fun p => { usable := u.toNat, tbl := p.1, payload := p.2 } := by
  rw [parseHeader, if_neg (by omega)]
  rfl

/-- With a whole table the header parses as the table does (42_huffman_codec.md R191). -/
theorem parseHeader_of_whole_table {rest : List Byte} (h : 5 * symbolCount n ≤ rest.length) :
    parseHeader (u :: n :: rest) =
      (parseEntries (symbolCount n) none rest).map fun p => { usable := u.toNat, tbl := p.1, payload := p.2 } := by
  rw [parseHeader_of_usable hu1 hu8, if_neg (Nat.not_lt.mpr h)]

variable {tbl : List Entry} (hn : tbl.length = symbolCount n) (hfreq : ∀ e ∈ tbl, e.freq < 2 ^ 32) (pay : List Byte)
include hn hfreq

theorem parseHeader_container (h : TableLegal tbl) :
    parseHeader (u :: n :: (tableBytes tbl ++ pay)) = .ok { usable := u.toNat, tbl := tbl, payload := pay } := by
  rw [parseHeader_of_whole_table hu1 hu8 (by simp [hn]), ← hn,
    parseEntries_tableBytes hfreq ((tableLegalAfter_none tbl).mpr h)]
  rfl

theorem parseHeader_container_of_not_legal (h : ¬TableLegal tbl) :
    parseHeader (u :: n :: (tableBytes tbl ++ pay)) = .error .hufTable := by
  rw [parseHeader_of_whole_table hu1 hu8 (by simp [hn]), ← hn,
    parseEntries_tableBytes_of_not_legal hfreq (mt (tableLegalAfter_none tbl).mp h)]
  rfl

end

/-! ### What the decoder makes of a header -/

theorem hufDecode_of_parseHeader_eq_error {c : List Byte} {e : ErrCode} (hne : c ≠ []) (h : parseHeader c = .error e)
    (dc : Nat) : hufDecode c dc = .error e := by
  rw [hufDecode, if_neg hne, h]
  rfl

section

variable {c : List Byte} {h : Parsed} (hp : parseHeader c = .ok h)
include hp

theorem ne_nil_of_parseHeader_eq_ok : c ≠ [] := by
  rintro rfl
  cases hp

theorem hufDecode_of_capacity_lt {dc : Nat} (hdc : dc < totalFreq h.tbl) : hufDecode c dc = .error .dstOverflow := by
  rw [hufDecode, if_neg (ne_nil_of_parseHeader_eq_ok hp), hp]
  exact if_pos hdc

/-- Of the payload only its usable bits matter (42_huffman_codec.md R193, R194). -/
theorem hufDecode_congr {c' : List Byte} {h' : Parsed} (hp' : parseHeader c' = .ok h') (htbl : h'.tbl = h.tbl)
    (hbits : payloadBits h'.payload h'.usable = payloadBits h.payload h.usable) (dc : Nat) :
    hufDecode c' dc = hufDecode c dc := by
  rw [hufDecode, hufDecode, if_neg (ne_nil_of_parseHeader_eq_ok hp'), if_neg (ne_nil_of_parseHeader_eq_ok hp), hp, hp']
  simp only [bind, Except.bind, htbl, hbits]

variable {dc : Nat} {root : Tree} (hdc : totalFreq h.tbl ≤ dc) (hroot : buildTree h.tbl = some root)
include hdc hroot

theorem hufDecode_of_walkTree_eq_error {e : ErrCode}
    (hwalk : walkTree root root (payloadBits h.payload h.usable) (totalFreq h.tbl) = .error e) :
    hufDecode c dc = .error e := by
  rw [hufDecode, if_neg (ne_nil_of_parseHeader_eq_ok hp), hp]
  simp only [bind, Except.bind, if_neg (Nat.not_lt.mpr hdc), hroot, hwalk]

/-- After the walk no usable bit may be left (42_huffman_codec.md R194). -/
theorem hufDecode_of_walkTree_eq_ok {out : List Byte} {left : Bits}
    (hwalk : walkTree root root (payloadBits h.payload h.usable) (totalFreq h.tbl) = .ok (out, left)) :
    hufDecode c dc = if left = [] then .ok out else .error .hufLength := by
  rw [hufDecode, if_neg (ne_nil_of_parseHeader_eq_ok hp), hp]
  simp only [bind, Except.bind, if_neg (Nat.not_lt.mpr hdc), hroot, hwalk]
  cases left <;> rfl

end

/-- Settles O49: each check of `parseHeader` in its order, then the sum of the counts. -/
theorem hufDecHeaderChecksInOrder : Obligations.HufDecHeaderChecksInOrder := by
  intro u n dc
  simp only [← symbolCount_eq]
  refine ⟨rfl, fun rest hu => ?_, fun hu1 hu8 rest hlen => ?_, fun hu1 hu8 tbl pay hn hfreq => ⟨fun hbad => ?_,
    fun hlegal hdc => ?_⟩⟩
  · exact hufDecode_of_parseHeader_eq_error (List.cons_ne_nil _ _) (parseHeader_of_not_usable hu n rest) dc
  · have hparse : parseHeader (u :: n :: rest) = .error .hufTruncated := by
      rw [parseHeader_of_usable hu1 hu8, if_pos hlen]
    exact hufDecode_of_parseHeader_eq_error (List.cons_ne_nil _ _) hparse dc
  · exact hufDecode_of_parseHeader_eq_error (List.cons_ne_nil _ _)
      (parseHeader_container_of_not_legal hu1 hu8 hn hfreq pay hbad) dc
  · exact hufDecode_of_capacity_lt (parseHeader_container hu1 hu8 hn hfreq pay hlegal) hdc

/-- Settles O51: the last byte is payload, so the table parses without it, and its padding is no usable bit. -/
theorem hufDecIgnoresPaddingBits : Obligations.HufDecIgnoresPaddingBits := by
  intro u n rest x y dc hlen hxy
  rw [← symbolCount_eq] at hlen
  by_cases hu : u.toNat = 0 ∨ 8 < u.toNat
  · rw [hufDecode_of_parseHeader_eq_error (List.cons_ne_nil _ _) (parseHeader_of_not_usable hu n _),
      hufDecode_of_parseHeader_eq_error (List.cons_ne_nil _ _) (parseHeader_of_not_usable hu n _)]
  · have hparse (z : Byte) : parseHeader (u :: n :: (rest ++ [z])) =
        (parseEntries (symbolCount n) none rest).map fun p =>
          { usable := u.toNat, tbl := p.1, payload := p.2 ++ [z] } := by
      rw [parseHeader_of_whole_table (by omega) (by omega) (by rw [List.length_append]; omega), parseEntries_append hlen]
      cases parseEntries (symbolCount n) none rest <;> rfl
    cases hentries : parseEntries (symbolCount n) none rest with
    | error e =>
      simp only [hentries] at hparse
      rw [hufDecode_of_parseHeader_eq_error (List.cons_ne_nil _ _) (hparse x),
        hufDecode_of_parseHeader_eq_error (List.cons_ne_nil _ _) (hparse y)]
    | ok p =>
      simp only [hentries] at hparse
      refine hufDecode_congr (hparse y) (hparse x) rfl ?_ dc
      simp only [payloadBits_append_singleton, take_bitsOfByte_congr hxy]

end Sys2Proof.Machine

/-! PROOFS. The walk of the tree (42_huffman_codec.md R193, R194). -/

namespace Sys2Proof.Machine

/-! ### One bit of the walk -/

/-- The walk's answer with `s` emitted before it. -/
def emit (s : Byte) (r : Except ErrCode (List Byte × Bits)) : Except ErrCode (List Byte × Bits) :=
  r.map fun p => (s :: p.1, p.2)

theorem walkTree_zero (root t : Tree) (bits : Bits) : walkTree root t bits 0 = .ok ([], bits) := by
  rw [walkTree]

theorem walkTree_nil (root t : Tree) (n : Nat) : walkTree root t [] (n + 1) = .error .hufLength := by
  rw [walkTree]

/-- A root that is a leaf emits its symbol once per "0" bit (41_huffman_tree.md R151). -/
theorem walkTree_leaf_false (s : Byte) (f : Nat) (t : Tree) (bits : Bits) (n : Nat) :
    walkTree (.leaf s f) t (false :: bits) (n + 1) = emit s (walkTree (.leaf s f) (.leaf s f) bits n) := by
  rw [walkTree, if_neg Bool.false_ne_true]
  rfl

theorem walkTree_leaf_true (s : Byte) (f : Nat) (t : Tree) (bits : Bits) (n : Nat) :
    walkTree (.leaf s f) t (true :: bits) (n + 1) = .error .hufCorrupt := by
  rw [walkTree, if_pos rfl]

section

variable {root t : Tree} {bit : Bool} {s : Byte} {f : Nat} {l r : Tree} (hroot : ∀ b g, root ≠ .leaf b g)
include hroot

/-- Below an inner root, a leaf is emitted and the walk is back at the root. -/
theorem walkTree_to_leaf (h : t.child bit = .leaf s f) (bits : Bits) (n : Nat) :
    walkTree root t (bit :: bits) (n + 1) = emit s (walkTree root root bits n) := by
  cases root with
  | leaf b g => exact absurd rfl (hroot b g)
  | node b g l r =>
    simp only [walkTree, h]
    rfl

theorem walkTree_to_node (h : t.child bit = .node s f l r) (bits : Bits) (n : Nat) :
    walkTree root t (bit :: bits) (n + 1) = walkTree root (.node s f l r) bits (n + 1) := by
  cases root with
  | leaf b g => exact absurd rfl (hroot b g)
  | node b g l r => simp only [walkTree, h]

/-! ### The walk of a code -/

/-- From the child `t'` of `t`, the rest of the code of a leaf below it leads to that leaf (41_huffman_tree.md R150). -/
theorem exists_walkTree_of_mem_walkCodes {t' : Tree} {path : Bits} {p : Byte × Bits} (h : p ∈ walkCodes t' path)
    (hchild : t.child bit = t') :
    ∃ w, p.2 = path ++ w ∧
      ∀ bits n, walkTree root t (bit :: (w ++ bits)) (n + 1) = emit p.1 (walkTree root root bits n) := by
  induction t' generalizing t bit path with
  | leaf b g =>
    rw [List.mem_singleton.mp h]
    exact ⟨[], (List.append_nil path).symm, walkTree_to_leaf hroot hchild⟩
  | node b g l r ihl ihr =>
    have hstep := walkTree_to_node hroot hchild
    rcases List.mem_append.mp h with h | h
    · obtain ⟨w, hw, hwalk⟩ := ihl h (t := .node b g l r) (bit := false) rfl
      exact ⟨false :: w, by rw [hw, List.append_assoc]; rfl, fun bits n => (hstep _ n).trans (hwalk bits n)⟩
    · obtain ⟨w, hw, hwalk⟩ := ihr h (t := .node b g l r) (bit := true) rfl
      exact ⟨true :: w, by rw [hw, List.append_assoc]; rfl, fun bits n => (hstep _ n).trans (hwalk bits n)⟩

end

/-- From the root, the code of a byte emits that byte (42_huffman_codec.md R193). -/
theorem walkTree_code {root : Tree} {p : Byte × Bits} (h : p ∈ codes root) (bits : Bits) (n : Nat) :
    walkTree root root (p.2 ++ bits) (n + 1) = emit p.1 (walkTree root root bits n) := by
  cases root with
  | leaf b f =>
    rw [List.mem_singleton.mp h]
    exact walkTree_leaf_false b f _ bits n
  | node b f l r =>
    have hroot : ∀ b' g, Tree.node b f l r ≠ .leaf b' g := fun _ _ => Tree.noConfusion
    rcases List.mem_append.mp h with h | h
    · obtain ⟨w, hw, hwalk⟩ := exists_walkTree_of_mem_walkCodes hroot h (t := .node b f l r) (bit := false) rfl
      exact hw ▸ hwalk bits n
    · obtain ⟨w, hw, hwalk⟩ := exists_walkTree_of_mem_walkCodes hroot h (t := .node b f l r) (bit := true) rfl
      exact hw ▸ hwalk bits n

/-- The walk of the codes of `out` emits `out`, and leaves the bits after them (42_huffman_codec.md R193). -/
theorem walkTree_bitStream {root : Tree} {out : List Byte} (h : ∀ b ∈ out, b ∈ root.leaves.map Entry.sym)
    (left : Bits) : walkTree root root (bitStream (codes root) out ++ left) out.length = .ok (out, left) := by
  induction out with
  | nil => exact walkTree_zero root root left
  | cons b out ih =>
    obtain ⟨hb, hout⟩ := List.forall_mem_cons.mp h
    obtain ⟨code, hcode⟩ := exists_codeOf_eq_some (t := codes root) (by rwa [map_fst_codes])
    have hstream : bitStream (codes root) (b :: out) = code ++ bitStream (codes root) out := by
      rw [bitStream, List.flatMap_cons, hcode]
      rfl
    rw [hstream, List.append_assoc, List.length_cons, walkTree_code (mem_of_codeOf_eq_some hcode), ih hout]
    rfl

/-! ### Missing bits and wrong bits -/

/-- The walk's answer when the bits `more` follow. -/
def withMore (more : Bits) (r : Except ErrCode (List Byte × Bits)) : Except ErrCode (List Byte × Bits) :=
  r.map fun p => (p.1, p.2 ++ more)

theorem emit_withMore {s : Byte} {more : Bits} {r r' : Except ErrCode (List Byte × Bits)}
    (h : r = .error .hufLength ∨ r' = withMore more r) :
    emit s r = .error .hufLength ∨ emit s r' = withMore more (emit s r) := by
  rcases h with rfl | rfl
  · exact .inl rfl
  · exact .inr (by cases r <;> rfl)

/-- Unless the walk runs out of bits, bits that follow change nothing but what is left. -/
theorem walkTree_append (root t : Tree) (bits more : Bits) (n : Nat) :
    walkTree root t bits n = .error .hufLength ∨
      walkTree root t (bits ++ more) n = withMore more (walkTree root t bits n) := by
  induction bits generalizing t n with
  | nil =>
    cases n with
    | zero => exact .inr (by rw [walkTree_zero, walkTree_zero]; rfl)
    | succ n => exact .inl (walkTree_nil root t n)
  | cons bit bits ih =>
    rw [List.cons_append]
    cases n with
    | zero => exact .inr (by rw [walkTree_zero, walkTree_zero]; rfl)
    | succ n =>
      by_cases hleaf : ∃ s f, root = .leaf s f
      · obtain ⟨s, f, rfl⟩ := hleaf
        cases bit with
        | false =>
          rw [walkTree_leaf_false, walkTree_leaf_false]
          exact emit_withMore (ih _ n)
        | true =>
          rw [walkTree_leaf_true, walkTree_leaf_true]
          exact .inr rfl
      · have hroot : ∀ b g, root ≠ .leaf b g := fun b g h => hleaf ⟨b, g, h⟩
        cases hchild : t.child bit with
        | leaf s f =>
          rw [walkTree_to_leaf hroot hchild, walkTree_to_leaf hroot hchild]
          exact emit_withMore (ih _ n)
        | node s f l r =>
          rw [walkTree_to_node hroot hchild, walkTree_to_node hroot hchild]
          exact ih _ (n + 1)

/-- The walk of the codes of `out` with bits missing at their end runs out of bits (42_huffman_codec.md R194). -/
theorem walkTree_of_missing {root : Tree} {out : List Byte} (h : ∀ b ∈ out, b ∈ root.leaves.map Entry.sym)
    {bits missing : Bits} (hne : missing ≠ []) (hbits : bits ++ missing = bitStream (codes root) out) :
    walkTree root root bits out.length = .error .hufLength := by
  refine (walkTree_append root root bits missing out.length).resolve_right fun hmore => ?_
  have hall := walkTree_bitStream h []
  rw [List.append_nil, ← hbits, hmore] at hall
  obtain ⟨p, -, hp⟩ := exists_of_map_eq_ok hall
  exact hne (List.append_eq_nil_iff.mp (congrArg Prod.snd hp)).2

/-- A "1" bit among the first `n` bits is HUF_CORRUPT when the root is a leaf (42_huffman_codec.md R193). -/
theorem walkTree_leaf_of_true_mem {s : Byte} {f n : Nat} {bits : Bits} (h : true ∈ bits.take n) (t : Tree) :
    walkTree (.leaf s f) t bits n = .error .hufCorrupt := by
  induction bits generalizing t n with
  | nil => simp at h
  | cons bit bits ih =>
    cases n with
    | zero => simp at h
    | succ n =>
      cases bit with
      | false =>
        rw [walkTree_leaf_false, ih (by simpa using h)]
        rfl
      | true => exact walkTree_leaf_true s f t bits n

end Sys2Proof.Machine

/-! PROOFS. The decoder on a container with a legal table (42_huffman_codec.md R193, R194). -/

namespace Sys2Proof.Machine

/-! ### Any table -/

section

variable {c : List Byte} {h : Parsed} {dc : Nat} {root : Tree} {out : List Byte} (hp : parseHeader c = .ok h)
  (hdc : totalFreq h.tbl ≤ dc) (hroot : buildTree h.tbl = some root) (hsym : ∀ b ∈ out, b ∈ h.tbl.map Entry.sym)
  (hlen : out.length = totalFreq h.tbl)
include hroot hsym

theorem mem_leaves_of_mem_table : ∀ b ∈ out, b ∈ root.leaves.map Entry.sym := fun b hb =>
  ((leaves_buildTree_perm hroot).map Entry.sym).mem_iff.mpr (hsym b hb)

include hp hdc hlen

/-- The usable bits are the codes of `out` and what is left after them, which must be nothing. -/
theorem hufDecode_of_payloadBits_eq {left : Bits}
    (hbits : payloadBits h.payload h.usable = bitStream (codes root) out ++ left) :
    hufDecode c dc = if left = [] then .ok out else .error .hufLength := by
  refine hufDecode_of_walkTree_eq_ok hp hdc hroot ?_
  rw [hbits, ← hlen]
  exact walkTree_bitStream (mem_leaves_of_mem_table hroot hsym) left

theorem hufDecode_of_missing_bits {missing : Bits} (hne : missing ≠ [])
    (hbits : payloadBits h.payload h.usable ++ missing = bitStream (codes root) out) :
    hufDecode c dc = .error .hufLength := by
  refine hufDecode_of_walkTree_eq_error hp hdc hroot ?_
  rw [← hlen]
  exact walkTree_of_missing (mem_leaves_of_mem_table hroot hsym) hne hbits

end

/-! ### One symbol -/

/-- The codes of `f` times the only symbol are `f` zeros (41_huffman_tree.md R151). -/
theorem bitStream_leaf_replicate (s : Byte) (g f : Nat) :
    bitStream (codes (.leaf s g)) (List.replicate f s) = List.replicate f false := by
  induction f with
  | zero => rfl
  | succ f ih =>
    rw [List.replicate_succ, bitStream, List.flatMap_cons, ← bitStream, ih]
    simp [codes, codeOf, List.replicate_succ]

theorem totalFreq_single (s : Byte) (f : Nat) : totalFreq [⟨s, f⟩] = f := List.sum_singleton

section

variable {u : Byte} (s : Byte) {f dc : Nat} {pay : List Byte} (hu1 : 1 ≤ u.toNat) (hu8 : u.toNat ≤ 8) (hf : 1 ≤ f)
  (hf32 : f < 2 ^ 32) (hdc : f ≤ dc)
include hu1 hu8 hf hf32

theorem parseHeader_single (pay : List Byte) :
    parseHeader (u :: 1 :: s :: (le32 f ++ pay)) = .ok { usable := u.toNat, tbl := [⟨s, f⟩], payload := pay } :=
  parseHeader_container (n := 1) (tbl := [⟨s, f⟩]) hu1 hu8 rfl (by simpa using hf32) pay
    ⟨List.pairwise_singleton _ _, by simpa using hf⟩

include hdc

/-- Zeros up to the count of the only symbol, and anything after them, which must be nothing. -/
theorem hufDecode_single_of_zeros {left : Bits} (h : payloadBits pay u.toNat = List.replicate f false ++ left) :
    hufDecode (u :: 1 :: s :: (le32 f ++ pay)) dc =
      if left = [] then .ok (List.replicate f s) else .error .hufLength := by
  refine hufDecode_of_payloadBits_eq (root := .leaf s f) (parseHeader_single s hu1 hu8 hf hf32 pay)
    ((totalFreq_single s f).trans_le hdc) rfl (by simp) (by rw [totalFreq_single, List.length_replicate]) ?_
  rw [bitStream_leaf_replicate, h]

/-- Fewer zeros than the count of the only symbol are HUF_LENGTH. -/
theorem hufDecode_single_of_too_few_zeros {k : Nat} (hk : k < f)
    (h : payloadBits pay u.toNat = List.replicate k false) :
    hufDecode (u :: 1 :: s :: (le32 f ++ pay)) dc = .error .hufLength := by
  have hmissing : List.replicate (f - k) false ≠ [] := mt (List.replicate_eq_nil_iff _).mp (by omega)
  refine hufDecode_of_missing_bits (root := .leaf s f) (out := List.replicate f s)
    (parseHeader_single s hu1 hu8 hf hf32 pay) ((totalFreq_single s f).trans_le hdc) rfl (by simp)
    (by rw [totalFreq_single, List.length_replicate]) hmissing ?_
  rw [bitStream_leaf_replicate, h, List.replicate_append_replicate, Nat.add_sub_cancel' hk.le]

theorem hufDecode_single_of_one (h : true ∈ (payloadBits pay u.toNat).take f) :
    hufDecode (u :: 1 :: s :: (le32 f ++ pay)) dc = .error .hufCorrupt := by
  refine hufDecode_of_walkTree_eq_error (root := .leaf s f) (parseHeader_single s hu1 hu8 hf hf32 pay)
    ((totalFreq_single s f).trans_le hdc) rfl ?_
  exact walkTree_leaf_of_true_mem ((totalFreq_single s f).symm ▸ h) _

end

/-- A bit string without "1" among its first `f` bits begins with zeros. -/
theorem take_eq_replicate_false {bits : Bits} {f : Nat} (h : true ∉ bits.take f) :
    bits.take f = List.replicate (min f bits.length) false := by
  rw [← List.length_take]
  exact List.eq_replicate_of_mem fun x hx => (Bool.not_eq_true x).mp fun hx' => h (hx' ▸ hx)

/-- Settles O50: any table by `walkTree_bitStream` and `walkTree_of_missing`; one symbol by its bits being zeros up to the
first "1". -/
theorem hufDecWalksTheUsableBits : Obligations.HufDecWalksTheUsableBits := by
  refine ⟨fun u n tbl pay dc root out hu1 hu8 hn hfreq hlegal hdc hroot hsym hlen => ?_,
    fun u s f dc pay hu1 hu8 hf hf32 hdc => ⟨fun hzero hlen => ?_, hufDecode_single_of_one s hu1 hu8 hf hf32 hdc,
      fun hzero hlen => ?_⟩⟩
  · have hp := parseHeader_container hu1 hu8 (hn.trans (symbolCount_eq n).symm) hfreq pay hlegal
    refine ⟨fun hbits => ?_, fun left hne hbits => ?_, fun missing hne hbits =>
      hufDecode_of_missing_bits hp hdc hroot hsym hlen hne hbits⟩
    · rw [hufDecode_of_payloadBits_eq hp hdc hroot hsym hlen (hbits.trans (List.append_nil _).symm), if_pos rfl]
    · rw [hufDecode_of_payloadBits_eq hp hdc hroot hsym hlen hbits, if_neg hne]
  · have hbits : payloadBits pay u.toNat = List.replicate f false ++ [] := by
      rw [List.append_nil, ← hlen]
      exact List.eq_replicate_of_mem hzero
    rw [hufDecode_single_of_zeros s hu1 hu8 hf hf32 hdc hbits, if_pos rfl]
  · have htake := take_eq_replicate_false hzero
    rcases Nat.lt_or_gt_of_ne hlen with hshort | hlong
    · rw [List.take_of_length_le hshort.le, Nat.min_eq_right hshort.le] at htake
      exact hufDecode_single_of_too_few_zeros s hu1 hu8 hf hf32 hdc hshort htake
    · rw [Nat.min_eq_left hlong.le] at htake
      have hbits := (List.take_append_drop f (payloadBits pay u.toNat)).symm
      rw [htake] at hbits
      rw [hufDecode_single_of_zeros s hu1 hu8 hf hf32 hdc hbits, if_neg]
      exact List.ne_nil_of_length_pos (by rw [List.length_drop]; omega)

end Sys2Proof.Machine

/-! PROOFS. HUF_ENC, and HUF_DEC of what it makes (42_huffman_codec.md R180, R190, R195). -/

namespace Sys2Proof.Machine

/-- The container of an input: nothing for no bytes, else header and packed bit stream (42_huffman_codec.md R180, R182). -/
def container (src : List Byte) : List Byte :=
  if src = [] then []
  else header (bitStream (codeTable src) src).length (table (freqCount src)) ++ pack (bitStream (codeTable src) src)

/-- HUF_ENC answers the container when DST_CAP has room for it (42_huffman_codec.md R180, R181). -/
theorem hufEncode_eq_ok {src : List Byte} {dc : Nat} (h : (container src).length ≤ dc) :
    hufEncode src dc = .ok (container src) := by
  by_cases hne : src = []
  · rw [hufEncode, container, if_pos hne, if_pos hne]
  · rw [container, if_neg hne, List.length_append, length_header, length_pack] at h
    rw [hufEncode, container, if_neg hne, if_neg hne]
    exact if_neg (Nat.not_lt.mpr h)

theorem eq_container_of_hufEncode_eq_ok {src c : List Byte} {dc : Nat} (h : hufEncode src dc = .ok c) :
    c = container src := by
  by_cases hne : src = []
  · rw [hufEncode, if_pos hne] at h
    rw [container, if_pos hne, Except.ok.inj h]
  · rw [container, if_neg hne]
    exact eq_of_hufEncode_eq_ok hne h

theorem exists_root_of_ne_nil {src : List Byte} (h : src ≠ []) :
    ∃ root, buildTree (table (freqCount src)) = some root ∧ codeTable src = codes root := by
  obtain ⟨root, hroot⟩ := exists_buildTree (mt (table_freqCount_eq_nil_iff src).mp h)
  exact ⟨root, hroot, by rw [codeTable, hroot]⟩

/-- tableSize stands for the size of the table, which 256 symbols fill (30_encoding.md R96, R97). -/
theorem symbolCount_ofNat {k : Nat} (h1 : 1 ≤ k) (h256 : k ≤ 256) : symbolCount (BitVec.ofNat 8 (k % 256)) = k := by
  rw [symbolCount_eq, BitVec.toNat_ofNat]
  split <;> omega

/-- Decoding a container gives its input back: the table parses, and the usable bits are the codes of the input
(42_huffman_codec.md R195). -/
theorem hufDecode_container {src : List Byte} {dc : Nat} (h32 : src.length < 2 ^ 32) (hdc : src.length ≤ dc) :
    hufDecode (container src) dc = .ok src := by
  by_cases hne : src = []
  · subst hne
    rfl
  · obtain ⟨root, hroot, hcodes⟩ := exists_root_of_ne_nil hne
    obtain ⟨hlegal, -, hempty, hsize, htotal⟩ := tableListsTheAlphabet src
    have hpos : 1 ≤ (bitStream (codeTable src) src).length :=
      (List.length_pos_iff.mpr hne).trans_le (length_le_length_bitStream src)
    rw [container, if_neg hne, header_eq, hcodes]
    rw [hcodes] at hpos
    generalize hbits : bitStream (codes root) src = bits at hpos ⊢
    obtain ⟨hu1, hu8, -⟩ := usableBits_spec hpos
    have hu : (BitVec.ofNat 8 (usableBits bits.length)).toNat = usableBits bits.length :=
      BitVec.toNat_ofNat _ _ ▸ Nat.mod_eq_of_lt (by omega)
    have hn := symbolCount_ofNat (List.length_pos_iff.mpr (mt hempty.mp hne)) hsize
    have hp := parseHeader_container (hu1.trans_eq hu.symm) (hu.trans_le hu8) hn.symm
      (fun e => freq_lt_of_mem_table h32) (pack bits) hlegal
    refine (hufDecode_of_payloadBits_eq hp (htotal.trans_le hdc) hroot
      (fun b => (mem_map_sym_table_freqCount src b).mpr) htotal.symm (left := []) ?_).trans (if_pos rfl)
    rw [hu, payloadBits_pack hpos, hbits, List.append_nil]

/-- Settles O48: the container is `container`, and `hufDecode_container` decodes it. -/
theorem huffmanRoundTrip : Obligations.HuffmanRoundTrip := fun b h32 =>
  ⟨container b, fun _ => hufEncode_eq_ok, fun _ => hufDecode_container h32⟩

/-- Settles O13: the command's function answers the container, and a data command succeeds with what its function answers. -/
theorem hufEncWritesTheContainer : Obligations.HufEncWritesTheContainer := by
  intro s hm hw hr src bits ct hcap hclean
  have hout : commandFunction .hufEnc s.sourceBytes s.dstCap.toNat = .ok { bytes := ct, tail := false } :=
    congrArg (Except.map _) (hufEncode_eq_ok hcap)
  exact ⟨_, exec_data (by decide) s, runData_succeeds hm hw hr hout hcap hclean⟩

/-- Settles O14: a container of HUF_ENC decodes, so in both cases the command's function answers `b`. -/
theorem hufDecWritesTheDecodedBytes : Obligations.HufDecWritesTheDecodedBytes := by
  intro s b hm hw hr hsrc hclean
  have hdec : hufDecode s.sourceBytes s.dstCap.toNat = .ok b := by
    rcases hsrc with hdec | ⟨h32, hcap, dc, henc⟩
    · exact hdec
    · rw [eq_container_of_hufEncode_eq_ok henc]
      exact hufDecode_container h32 hcap
  have hout : commandFunction .hufDec s.sourceBytes s.dstCap.toNat = .ok { bytes := b, tail := false } :=
    congrArg (Except.map _) hdec
  exact ⟨_, exec_data (by decide) s, runData_succeeds hm hw hr hout (length_le_of_hufDecode_eq_ok hdec) hclean⟩

end Sys2Proof.Machine

/-! PROOFS. The match search (43_lz77_match.md R221, R226, R227): what a match length is, the search as the best match of the
distances up to n, and the statements that follow. -/

namespace Sys2Proof.Machine

@[simp] theorem matchLen_zero (xs ys : List Byte) : matchLen 0 xs ys = 0 :=
  Nat.le_zero.mp (matchLen_le_limit 0 xs ys)

/-- The `while` condition of LongestMatch decides each byte of a match (43_lz77_match.md R221). -/
theorem matchLen_succ (f : Nat) (xs ys : List Byte) :
    matchLen (f + 1) xs ys = if 1 < ys.length ∧ xs[0]? = ys[0]? then matchLen f xs.tail ys.tail + 1 else 0 := by
  match xs, ys with
  | [], [] | [], _ :: _ | _ :: _, [] | _ :: _, [_] => simp [matchLen]
  | x :: xs, y :: y' :: ys => simp [matchLen]

/-- What a match length is: the longest run of equal bytes within the limit that leaves a byte for the literal. -/
theorem le_matchLen_iff {f k : Nat} {xs ys : List Byte} (hpos : 0 < ys.length) :
    k ≤ matchLen f xs ys ↔ k ≤ f ∧ k < ys.length ∧ ∀ m < k, xs[m]? = ys[m]? := by
  induction f generalizing k xs ys with
  | zero =>
    rw [matchLen_zero]
    refine ⟨fun h => ?_, fun ⟨hk, _⟩ => hk⟩
    obtain rfl := Nat.le_zero.mp h
    simpa using hpos
  | succ f ih =>
    rw [matchLen_succ]
    rcases k with _ | k
    · simpa using hpos
    · split
      next h =>
        obtain ⟨hlen, hhead⟩ := h
        have htail : 0 < ys.tail.length := by rw [List.length_tail]; omega
        rw [Nat.add_le_add_iff_right, ih htail, Nat.forall_lt_succ_left]
        simp only [List.getElem?_tail, List.length_tail, hhead, true_and, Nat.add_le_add_iff_right, Nat.lt_sub_iff_add_lt]
      next h =>
        exact ⟨fun hk => absurd hk (Nat.not_succ_le_zero k),
          fun ⟨_, hk, hagree⟩ => absurd ⟨by omega, hagree 0 k.succ_pos⟩ h⟩

/-- The length of the match at distance `j` of position `i`. -/
def matchLenAt (src : List Byte) (i j : Nat) : Nat := matchLen Config.maxMatch (src.drop (i - j)) (src.drop i)

theorem le_matchLenAt_iff {src : List Byte} {i j k : Nat} (hi : i < src.length) :
    k ≤ matchLenAt src i j ↔ k ≤ 255 ∧ i + k < src.length ∧ ∀ m < k, src[i - j + m]? = src[i + m]? := by
  rw [matchLenAt, le_matchLen_iff (List.length_drop ▸ Nat.sub_pos_of_lt hi)]
  simp only [List.getElem?_drop, List.length_drop, Nat.lt_sub_iff_add_lt, Nat.add_comm k i]

/-- The rule's `while` from `k` on counts what `matchLen` counts from there. -/
theorem extendByRule_eq (src : List Byte) (i j : Nat) {f k : Nat} (h : k + f = 255) :
    extendByRule src i j f k = k + matchLen f (src.drop (i - j + k)) (src.drop (i + k)) := by
  induction f generalizing k with
  | zero => rw [extendByRule, matchLen_zero, Nat.add_zero]
  | succ f ih =>
    have hcond : (k < 255 ∧ i + k + 1 < src.length ∧ src[i - j + k]? = src[i + k]?) ↔
        1 < (src.drop (i + k)).length ∧ (src.drop (i - j + k))[0]? = (src.drop (i + k))[0]? := by
      rw [List.getElem?_drop, List.getElem?_drop, List.length_drop, Nat.add_zero, Nat.add_zero, ← and_assoc]
      exact and_congr_left fun _ => by omega
    rw [extendByRule, if_congr hcond (ih (by omega)) rfl, matchLen_succ, List.tail_drop, List.tail_drop]
    simp only [Nat.add_assoc]
    split <;> omega

theorem extendByRule_eq_matchLenAt (src : List Byte) (i j : Nat) : extendByRule src i j 255 0 = matchLenAt src i j :=
  (extendByRule_eq src i j (Nat.zero_add 255)).trans (Nat.zero_add _)

/-- The best of the distances 1 to n with the match lengths `len`: only a strictly longer match replaces the one before
(43_lz77_match.md R221, R223). -/
def bestUpTo (len : Nat → Nat) : Nat → Nat × Nat
  | 0 => (0, 0)
  | n + 1 => if len (n + 1) > (bestUpTo len n).2 then (n + 1, len (n + 1)) else bestUpTo len n

/-- The best is no match, or a distance with a match. -/
theorem bestUpTo_cases (len : Nat → Nat) (n : Nat) :
    bestUpTo len n = (0, 0) ∨ ∃ d, 1 ≤ d ∧ d ≤ n ∧ 1 ≤ len d ∧ bestUpTo len n = (d, len d) := by
  induction n with
  | zero => exact .inl rfl
  | succ n ih =>
    rw [bestUpTo]
    split
    next h => exact .inr ⟨n + 1, n.succ_pos, le_rfl, Nat.one_le_of_lt h, rfl⟩
    next => exact ih.imp_right fun ⟨d, h1, hn, hlen, heq⟩ => ⟨d, h1, hn.trans n.le_succ, hlen, heq⟩

/-- No distance has a longer match than the best. -/
theorem le_bestUpTo {len : Nat → Nat} {j n : Nat} (h1 : 1 ≤ j) (hn : j ≤ n) : len j ≤ (bestUpTo len n).2 := by
  induction n with
  | zero => omega
  | succ n ih =>
    rw [bestUpTo]
    rcases Nat.lt_or_eq_of_le hn with hn | rfl
    · have := ih (Nat.le_of_lt_succ hn)
      split <;> omega
    · split <;> omega

/-- Every distance smaller than the best has a shorter match. -/
theorem lt_bestUpTo {len : Nat → Nat} {j n : Nat} (h1 : 1 ≤ j) (hj : j < (bestUpTo len n).1) :
    len j < (bestUpTo len n).2 := by
  induction n with
  | zero => exact absurd hj j.not_lt_zero
  | succ n ih =>
    rw [bestUpTo] at hj ⊢
    split at hj
    next h => rw [if_pos h]; exact (le_bestUpTo h1 (Nat.le_of_lt_succ hj)).trans_lt h
    next h => rw [if_neg h]; exact ih hj

/-- The search goes on from the best of the distances up to `j` when `ps` and `cand` split the input at distance `j`. -/
theorem searchBack_bestUpTo {src front ps cand : List Byte} {i j : Nat} (hsrc : src = front ++ (ps.reverse ++ cand))
    (hi : i = front.length + ps.length + j) :
    searchBack (src.drop i) ps cand j (bestUpTo (matchLenAt src i) j) = bestUpTo (matchLenAt src i) (j + ps.length) := by
  induction ps generalizing cand j with
  | nil => rfl
  | cons p ps ih =>
    rw [List.length_cons] at hi
    have hsrc' : src = front ++ (ps.reverse ++ p :: cand) := by
      rw [hsrc, List.reverse_cons, List.append_assoc, List.singleton_append]
    have hcand : src.drop (i - (j + 1)) = p :: cand := by
      have hlen : (front ++ ps.reverse).length = i - (j + 1) := by rw [List.length_append, List.length_reverse]; omega
      rw [hsrc', ← List.append_assoc, List.drop_left' hlen]
    have h := ih (j := j + 1) hsrc' (by omega)
    rwa [bestUpTo, matchLenAt, hcand, Nat.add_right_comm, Nat.add_assoc] at h

theorem longestMatchAt_eq_bestUpTo {src : List Byte} {i : Nat} (hi : i < src.length) :
    longestMatchAt src i = bestUpTo (matchLenAt src i) (min 255 i) := by
  have hlen : (src.take i).length = i := List.length_take_of_le hi.le
  have hps : ((src.take i).reverse.take 255).length = min 255 i := by rw [List.length_take, List.length_reverse, hlen]
  have hsrc : src = (src.take i).take (i - 255) ++ (((src.take i).reverse.take 255).reverse ++ src.drop i) := by
    rw [List.take_reverse, List.reverse_reverse, hlen, ← List.append_assoc, List.take_append_drop, List.take_append_drop]
  have hi' : i = ((src.take i).take (i - 255)).length + ((src.take i).reverse.take 255).length + 0 := by
    rw [hps, List.length_take, hlen]
    omega
  have h := searchBack_bestUpTo hsrc hi'
  rwa [hps, Nat.zero_add] at h

theorem longestMatchByRule_eq_bestUpTo (src : List Byte) (i : Nat) :
    longestMatchByRule src i = bestUpTo (fun j => extendByRule src i j 255 0) (min 255 i) := by
  rw [longestMatchByRule]
  induction min 255 i with
  | zero => rfl
  | succ n ih => rw [List.range_succ, List.foldl_append, ih]; rfl

/-- Settles O52: both searches are `bestUpTo`, of match lengths that agree by `extendByRule_eq_matchLenAt`. -/
theorem longestMatchMeetsTheRule : Obligations.LongestMatchMeetsTheRule := by
  intro src i hi
  rw [longestMatchAt_eq_bestUpTo hi, longestMatchByRule_eq_bestUpTo]
  exact congrArg (bestUpTo · _) (funext fun j => (extendByRule_eq_matchLenAt src i j).symm)

/-- Settles O53: the result is (0, 0), or a distance of the window with its match length. -/
theorem longestMatchBounds : Obligations.LongestMatchBounds := by
  intro src i d l hi h
  rw [longestMatchAt_eq_bestUpTo hi] at h
  rcases bestUpTo_cases (matchLenAt src i) (min 255 i) with h0 | ⟨d', hd1, hdn, hlen, hbest⟩
  · obtain ⟨rfl, rfl⟩ := Prod.mk.inj (h.symm.trans h0)
    simp
  · obtain ⟨rfl, rfl⟩ := Prod.mk.inj (h.symm.trans hbest)
    obtain ⟨hmax, hlit, hagree⟩ := (le_matchLenAt_iff hi).mp (le_refl (matchLenAt src i d))
    exact ⟨by omega, by omega, fun _ => ⟨hd1, hdn⟩, hagree⟩

/-- Settles O54: `k` agreeing bytes at distance `j` are at most its match length, which `bestUpTo` compares with `l`. -/
theorem longestMatchIsMaximalAndNearest : Obligations.LongestMatchIsMaximalAndNearest := by
  intro src i d l j k hi h hj1 hjn hk hlit hagree
  rw [longestMatchAt_eq_bestUpTo hi] at h
  have hkj : k ≤ matchLenAt src i j := (le_matchLenAt_iff hi).mpr ⟨hk, hlit, hagree⟩
  have hle := le_bestUpTo (len := matchLenAt src i) hj1 hjn
  have hlt := lt_bestUpTo (len := matchLenAt src i) (n := min 255 i) hj1
  rw [h] at hle hlt
  exact ⟨hkj.trans hle, fun hjd => (hkj.trans_lt (hlt hjd)).ne⟩

end Sys2Proof.Machine

/-! PROOFS. The decoder's loop (44_lz77_tuple.md R243 to R247): one tuple at a time on the output in order, a stream that goes
on after whole tuples, and the statements that follow. -/

namespace Sys2Proof.Machine

/-! ### The copy -/

/-- The byte at distance `d`, in the model's reversed output and in the rule's (44_lz77_tuple.md R244). -/
theorem getD_reverse_distance {out : List Byte} {d : Nat} (h1 : 1 ≤ d) (hd : d ≤ out.length) :
    out.reverse.getD (d - 1) 0 = out.getD (out.length - d) 0 := by
  rw [List.getD_reverse _ (by omega)]
  congr 1
  omega

/-- The model's copy is the rule's on the reversed output; a copy of no byte does not look at the distance. -/
theorem copyBack_reverse {d l : Nat} {out : List Byte} (h : 0 < l → 1 ≤ d ∧ d ≤ out.length) :
    copyBack d l out.reverse = (copyByRule d l out).reverse := by
  induction l generalizing out with
  | zero => rfl
  | succ l ih =>
    obtain ⟨h1, hd⟩ := h l.succ_pos
    rw [copyBack, copyByRule, getD_reverse_distance h1 hd, ← List.reverse_concat]
    exact ih fun _ => ⟨h1, by rw [List.length_append]; omega⟩

/-- The copy appends `l` bytes, each equal to the byte `d` before it (44_lz77_tuple.md R244). -/
theorem exists_copyByRule_eq {d l : Nat} {out : List Byte} (h : 0 < l → 1 ≤ d ∧ d ≤ out.length) :
    ∃ copied : List Byte, copied.length = l ∧ copyByRule d l out = out ++ copied ∧
      ∀ m < l, (out ++ copied)[out.length + m]? = (out ++ copied)[out.length + m - d]? := by
  induction l generalizing out with
  | zero => exact ⟨[], rfl, (List.append_nil out).symm, fun m hm => absurd hm m.not_lt_zero⟩
  | succ l ih =>
    obtain ⟨h1, hd⟩ := h l.succ_pos
    set x := out.getD (out.length - d) 0 with hx
    have hlen : (out ++ [x]).length = out.length + 1 := List.length_append
    obtain ⟨copied, hl, hcopy, hback⟩ := ih (out := out ++ [x]) fun _ => ⟨h1, by omega⟩
    rw [List.append_assoc, List.singleton_append] at hcopy hback
    refine ⟨x :: copied, congrArg (· + 1) hl, hcopy, fun m hm => ?_⟩
    rcases m with _ | m
    · have hlt : out.length - d < out.length := by omega
      rw [Nat.add_zero, List.getElem?_append_left hlt, hx]
      simp [hlt]
    · rw [hlen] at hback
      rw [← Nat.add_assoc, Nat.add_right_comm]
      exact hback m (Nat.lt_of_succ_lt_succ hm)

/-- The copy gives back a match: `l` bytes of `src` from `i` on that agree with those `d` before (44_lz77_tuple.md R248). -/
theorem copyByRule_take {src : List Byte} {d l i : Nat} (h : 0 < l → 1 ≤ d ∧ d ≤ i) (hi : i + l ≤ src.length)
    (hagree : ∀ m < l, src[i - d + m]? = src[i + m]?) : copyByRule d l (src.take i) = src.take (i + l) := by
  induction l generalizing i with
  | zero => rfl
  | succ l ih =>
    obtain ⟨h1, hd⟩ := h l.succ_pos
    have hlen : (src.take i).length = i := List.length_take_of_le (by omega)
    have hnext : src.take i ++ [(src.take i).getD ((src.take i).length - d) 0] = src.take (i + 1) := by
      have hsrc : src[i - d]? = src[i]? := hagree 0 l.succ_pos
      have hlt : i < src.length := by omega
      rw [hlen, List.take_add_one, List.getD_eq_getElem?_getD, List.getElem?_take_of_lt (by omega), hsrc]
      simp [hlt]
    rw [copyByRule, hnext, ih (fun _ => ⟨h1, by omega⟩) (by omega) fun m hm => ?_]
    · congr 1
      omega
    · rw [show i + 1 - d + m = i - d + (m + 1) by omega, Nat.add_right_comm, Nat.add_assoc]
      exact hagree (m + 1) (Nat.succ_lt_succ hm)

/-! ### One tuple, and the bytes left over -/

/-- What the loop does with the next tuple, in the words of the rule (44_lz77_tuple.md R243, R247). -/
theorem lzDecodeFrom_tuple (dc : Nat) (out : List Byte) (d l ch : Byte) (rest : List Byte) :
    lzDecodeFrom dc out.reverse (d :: l :: ch :: rest) =
      if l.toNat > 0 ∧ (d.toNat = 0 ∨ d.toNat > out.length) then .error .lzDistance
      else if out.length + l.toNat + 1 > dc then .error .dstOverflow
      else lzDecodeFrom dc (copyByRule d.toNat l.toNat out ++ [ch]).reverse rest := by
  rw [lzDecodeFrom, List.length_reverse, List.reverse_concat]
  split
  · rfl
  next hd => rw [copyBack_reverse (by omega)]

/-- Fewer than three bytes left end the loop; one or two of them set TAIL (44_lz77_tuple.md R246). -/
theorem lzDecodeFrom_left (dc : Nat) (out : List Byte) {left : List Byte} (h : left.length < 3) :
    lzDecodeFrom dc out.reverse left = .ok { bytes := out, tail := left.length == 1 || left.length == 2 } := by
  match left with
  | [] | [_] | [_, _] => simp [lzDecodeFrom]

/-- From any position on, the rule's loop and the model's do the same with the bytes left (44_lz77_tuple.md R243). -/
theorem lzDecodeFrom_drop {c : List Byte} {dc fuel pos : Nat} (out : List Byte) (h : c.length ≤ pos + fuel) :
    lzDecodeFrom dc out.reverse (c.drop pos) = lzDecodeByRule c dc fuel out pos := by
  have hleft {out : List Byte} {pos : Nat} (h3 : ¬pos + 3 ≤ c.length) : lzDecodeFrom dc out.reverse (c.drop pos) =
      .ok { bytes := out, tail := c.length - pos == 1 || c.length - pos == 2 } := by
    rw [← List.length_drop]
    exact lzDecodeFrom_left dc out (by rw [List.length_drop]; omega)
  induction fuel generalizing out pos with
  | zero => exact hleft (by omega)
  | succ fuel ih =>
    rw [lzDecodeByRule]
    split
    next h3 =>
      have hdrop : c.drop pos = c.getD pos 0 :: c.getD (pos + 1) 0 :: c.getD (pos + 2) 0 :: c.drop (pos + 3) := by
        rw [List.drop_eq_getElem_cons (by omega), List.drop_eq_getElem_cons (by omega),
          List.drop_eq_getElem_cons (by omega), List.getD_eq_getElem, List.getD_eq_getElem, List.getD_eq_getElem]
      rw [hdrop, lzDecodeFrom_tuple, ih _ (by omega)]
    next h3 => exact hleft h3

/-- Settles O57: `lzDecodeFrom_drop` from the first byte on. -/
theorem lzDecodeMeetsTheRule : Obligations.LzDecodeMeetsTheRule :=
  fun c _ => lzDecodeFrom_drop [] (Nat.le_add_left c.length 0)

/-! ### A stream of whole tuples -/

/-- A stream of whole tuples fails, whatever follows it, or the loop goes on from an output with what follows. -/
theorem lzDecodeFrom_whole_tuples (dc : Nat) (out : List Byte) : (c : List Byte) → c.length % 3 = 0 →
    (∃ e, ∀ x, lzDecodeFrom dc out.reverse (c ++ x) = .error e) ∨
      ∃ out' : List Byte, ∀ x, lzDecodeFrom dc out.reverse (c ++ x) = lzDecodeFrom dc out'.reverse x
  | [], _ => .inr ⟨out, fun _ => rfl⟩
  | [_], h | [_, _], h => absurd h (by simp)
  | d :: l :: ch :: rest, h => by
    simp only [List.cons_append, lzDecodeFrom_tuple]
    split
    next => exact .inl ⟨.lzDistance, fun _ => rfl⟩
    next =>
      split
      next => exact .inl ⟨.dstOverflow, fun _ => rfl⟩
      next => exact lzDecodeFrom_whole_tuples dc _ rest ((Nat.add_mod_right _ 3).symm.trans h)

/-- The two outcomes of a stream of whole tuples, seen from the first byte on; TAIL is 0 (44_lz77_tuple.md R246). -/
theorem lzDecode_whole_tuples {c : List Byte} (h : c.length % 3 = 0) (dc : Nat) :
    (∃ e, lzDecode c dc = .error e ∧ ∀ x, lzDecode (c ++ x) dc = .error e) ∨
      ∃ out : List Byte, lzDecode c dc = .ok { bytes := out, tail := false } ∧
        ∀ x, lzDecode (c ++ x) dc = lzDecodeFrom dc out.reverse x := by
  rcases lzDecodeFrom_whole_tuples dc [] c h with ⟨e, he⟩ | ⟨out, hout⟩
  · exact .inl ⟨e, List.append_nil c ▸ he [], he⟩
  · have hnil := (hout []).trans (lzDecodeFrom_left dc out (by decide))
    exact .inr ⟨out, List.append_nil c ▸ hnil, hout⟩

/-- Settles O58: the loop goes on with one or two bytes, and `lzDecodeFrom_left` says what it does with them. -/
theorem trailingBytesSetTail : Obligations.TrailingBytesSetTail := by
  intro c x dc out hc hx
  rcases lzDecode_whole_tuples hc dc with ⟨e, he, hmore⟩ | ⟨o, ho, hmore⟩
  · rw [he, hmore x]
    exact ⟨nofun, fun _ => id⟩
  · rw [ho, hmore x, lzDecodeFrom_left dc o (by omega)]
    refine ⟨fun h => ?_, nofun⟩
    cases h
    rcases hx with hx | hx <;> simp [hx]

/-- Settles O59: the loop goes on with the next tuple, and `lzDecodeFrom_tuple` says what it does with it. -/
theorem nextTupleIsCheckedThenCopied : Obligations.NextTupleIsCheckedThenCopied := by
  intro c rest d l ch dc out hc hdec
  rcases lzDecode_whole_tuples hc dc with ⟨e, he, -⟩ | ⟨o, ho, hmore⟩
  · cases he.symm.trans hdec
  · cases ho.symm.trans hdec
    dsimp only
    rw [hmore, hmore, lzDecodeFrom_tuple, lzDecodeFrom_tuple]
    refine ⟨fun hd => if_pos hd, fun hd hdc => (if_neg hd).trans (if_pos hdc), fun hd hdc => ?_⟩
    obtain ⟨copied, hlen, hcopy, hback⟩ := exists_copyByRule_eq (d := d.toNat) (l := l.toNat) (out := o) (by omega)
    refine ⟨copied, hlen, ?_, hback⟩
    rw [if_neg hd, if_neg (Nat.not_lt.mpr hdc), hcopy, lzDecodeFrom_left dc _ (by decide)]
    rfl

end Sys2Proof.Machine

/-! PROOFS. The tuples of an input (44_lz77_tuple.md R240 to R242), and the decoder on them (R248). -/

namespace Sys2Proof.Machine

/-! ### The tuples -/

/-- The tuple that LzEncode writes at position `i` (44_lz77_tuple.md R240). -/
def tupleAt (src : List Byte) (i : Nat) : Tuple where
  dist := BitVec.ofNat 8 (longestMatchAt src i).1
  len := BitVec.ofNat 8 (longestMatchAt src i).2
  lit := src.getD (i + (longestMatchAt src i).2) 0

section

variable {src : List Byte} {i : Nat} (hi : i < src.length)
include hi

/-- A distance and a length fit their bytes (44_lz77_tuple.md R241). -/
theorem tupleAt_match : ((tupleAt src i).dist.toNat, (tupleAt src i).len.toNat) = longestMatchAt src i := by
  rw [tupleAt]
  cases hm : longestMatchAt src i with
  | mk d l =>
    obtain ⟨hl, h0, hd, -⟩ := longestMatchBounds src i d l hi hm
    simp only [BitVec.toNat_ofNat, Prod.mk.injEq]
    omega

theorem toNat_len_tupleAt : (tupleAt src i).len.toNat = (longestMatchAt src i).2 :=
  congrArg Prod.snd (tupleAt_match hi)

/-- A tuple leaves a byte of the input for its literal (44_lz77_tuple.md R240). -/
theorem literal_lt_length : i + (tupleAt src i).len.toNat < src.length := by
  obtain ⟨hl, -⟩ := longestMatchBounds src i _ _ hi (tupleAt_match hi).symm
  omega

theorem getElem?_literal : src[i + (tupleAt src i).len.toNat]? = some (tupleAt src i).lit := by
  have hlit : (tupleAt src i).lit = src.getD (i + (tupleAt src i).len.toNat) 0 := by
    rw [toNat_len_tupleAt hi]
    rfl
  have hlt := literal_lt_length hi
  rw [hlit, List.getD_eq_getElem _ _ hlt]
  exact List.getElem?_eq_getElem hlt

/-- The encoder's loop at position `i` writes the tuple there and goes on after its literal (44_lz77_tuple.md R240). -/
theorem lzTuplesFrom_succ (fuel : Nat) :
    lzTuplesFrom (fuel + 1) (src.take i).reverse (src.drop i) =
      tupleAt src i :: lzTuplesFrom fuel (src.take (i + (tupleAt src i).len.toNat + 1)).reverse
        (src.drop (i + (tupleAt src i).len.toNat + 1)) := by
  have hrest := List.drop_eq_getElem_cons hi
  rw [hrest, lzTuplesFrom, ← hrest, toNat_len_tupleAt hi, Nat.add_assoc, List.take_add, List.reverse_append,
    ← List.drop_drop]
  simp [tupleAt, longestMatchAt, List.getD_eq_getElem?_getD]

/-- Copying the tuple and its literal after the bytes before it gives the bytes up to the next tuple. -/
theorem copyByRule_tupleAt :
    copyByRule (tupleAt src i).dist.toNat (tupleAt src i).len.toNat (src.take i) ++ [(tupleAt src i).lit] =
      src.take (i + (tupleAt src i).len.toNat + 1) := by
  obtain ⟨-, -, hd, hagree⟩ := longestMatchBounds src i _ _ hi (tupleAt_match hi).symm
  rw [copyByRule_take (fun hl => by omega) (literal_lt_length hi).le hagree, List.take_add_one, getElem?_literal hi]
  rfl

end

/-- `ts` are the tuples of `src` from position `i` on: each is the one at its position, and they end with the input
(44_lz77_tuple.md R240, R242). -/
inductive TuplesFrom (src : List Byte) : Nat → List Tuple → Prop
  | done : TuplesFrom src src.length []
  | tuple {i : Nat} {later : List Tuple} : i < src.length → TuplesFrom src (i + (tupleAt src i).len.toNat + 1) later →
      TuplesFrom src i (tupleAt src i :: later)

theorem tuplesFrom_lzTuplesFrom {src : List Byte} {fuel i : Nat} (hi : i ≤ src.length) (hfuel : src.length ≤ i + fuel) :
    TuplesFrom src i (lzTuplesFrom fuel (src.take i).reverse (src.drop i)) := by
  induction fuel generalizing i with
  | zero =>
    obtain rfl := le_antisymm hi hfuel
    exact .done
  | succ fuel ih =>
    rcases Nat.lt_or_eq_of_le hi with hlt | rfl
    · rw [lzTuplesFrom_succ hlt]
      exact .tuple hlt (ih (literal_lt_length hlt) (by omega))
    · rw [List.drop_length]
      exact .done

theorem tuplesFrom_lzTuples (src : List Byte) : TuplesFrom src 0 (lzTuples src) :=
  tuplesFrom_lzTuplesFrom src.length.zero_le (Nat.le_add_left _ 0)

namespace TuplesFrom

variable {src : List Byte} {i : Nat} {ts : List Tuple}

/-- The tuples end with the input (44_lz77_tuple.md R242). -/
theorem tuplePosition_eq (h : TuplesFrom src i ts) : i + tuplePosition ts = src.length := by
  induction h with
  | done => rfl
  | tuple _ _ ih =>
    rw [← ih, tuplePosition_cons]
    omega

/-- Each tuple is the one at the position that the tuples before it lead to (44_lz77_tuple.md R240, R242). -/
theorem eq_tupleAt {before later : List Tuple} {t : Tuple} (h : TuplesFrom src i (before ++ t :: later)) :
    i + tuplePosition before < src.length ∧ t = tupleAt src (i + tuplePosition before) := by
  induction before generalizing i with
  | nil =>
    cases h with
    | tuple hi => exact ⟨hi, rfl⟩
  | cons b before ih =>
    cases h with
    | tuple _ hlater =>
      have hstep := ih hlater
      rwa [Nat.add_assoc i, Nat.add_assoc i, ← tuplePosition_cons] at hstep

/-- The decoder that holds the input up to `i` gives the whole input from the tuples that follow (44_lz77_tuple.md R248). -/
theorem lzDecodeFrom_eq (h : TuplesFrom src i ts) {dc : Nat} (hdc : src.length ≤ dc) :
    lzDecodeFrom dc (src.take i).reverse (ts.flatMap Tuple.bytes) = .ok { bytes := src, tail := false } := by
  induction h with
  | done =>
    rw [List.take_length]
    exact lzDecodeFrom_left dc src (by decide)
  | @tuple i later hi _ ih =>
    obtain ⟨hl, h0, hd, -⟩ := longestMatchBounds src i _ _ hi (tupleAt_match hi).symm
    have hlen : (src.take i).length = i := List.length_take_of_le hi.le
    refine (lzDecodeFrom_tuple dc _ _ _ _ _).trans ?_
    rw [if_neg (by omega), if_neg (by omega), copyByRule_tupleAt hi]
    exact ih

end TuplesFrom

theorem length_le_tuplePosition (ts : List Tuple) : ts.length ≤ tuplePosition ts := by
  induction ts with
  | nil => exact le_rfl
  | cons t ts ih =>
    rw [List.length_cons, tuplePosition_cons]
    omega

/-- Settles O55: `TuplesFrom.eq_tupleAt` for each tuple, `TuplesFrom.tuplePosition_eq` for the sum of their lengths. -/
theorem tuplesCoverTheInput : Obligations.TuplesCoverTheInput := by
  intro src
  have h := tuplesFrom_lzTuples src
  have hpos : tuplePosition (lzTuples src) = src.length := (Nat.zero_add _).symm.trans h.tuplePosition_eq
  have hat {before later : List Tuple} {t : Tuple} (hts : lzTuples src = before ++ t :: later) :
      tuplePosition before < src.length ∧ t = tupleAt src (tuplePosition before) := by
    have hi := (hts ▸ h : TuplesFrom src 0 (before ++ t :: later)).eq_tupleAt
    rwa [Nat.zero_add] at hi
  refine ⟨fun before t later hts => ?_, hpos, hpos ▸ length_le_tuplePosition _, fun hne => ?_, length_flatMap_bytes _,
    fun t ht => ?_⟩
  · obtain ⟨hi, rfl⟩ := hat hts
    exact ⟨tupleAt_match hi, getElem?_literal hi⟩
  · refine List.length_pos_iff.mpr fun hnil => hne ?_
    rw [hnil] at hpos
    exact List.length_eq_zero_iff.mp hpos.symm
  · obtain ⟨before, later, hts⟩ := List.append_of_mem ht
    obtain ⟨hi, rfl⟩ := hat hts
    obtain ⟨-, h0, -⟩ := longestMatchBounds src _ _ _ hi (tupleAt_match hi).symm
    rw [BitVec.toNat_eq, BitVec.toNat_eq]
    exact h0.symm

/-! ### LZ_ENC and LZ_DEC -/

theorem lzEncode_eq_ok {src : List Byte} {dc : Nat} (h : 3 * (lzTuples src).length ≤ dc) :
    lzEncode src dc = .ok ((lzTuples src).flatMap Tuple.bytes) :=
  if_neg (Nat.not_lt.mpr ((length_flatMap_bytes _).trans_le h))

theorem eq_of_lzEncode_eq_ok {src c : List Byte} {dc : Nat} (h : lzEncode src dc = .ok c) :
    c = (lzTuples src).flatMap Tuple.bytes := by
  unfold lzEncode at h
  dsimp only at h
  split at h
  · cases h
  · exact (Except.ok.inj h).symm

/-- Decoding the tuples of an input gives it back (44_lz77_tuple.md R248). -/
theorem lzDecode_tuples {src : List Byte} {dc : Nat} (h : src.length ≤ dc) :
    lzDecode ((lzTuples src).flatMap Tuple.bytes) dc = .ok { bytes := src, tail := false } :=
  (tuplesFrom_lzTuples src).lzDecodeFrom_eq h

/-- Settles O56: the stream is the tuples' bytes, and `lzDecode_tuples` decodes them. -/
theorem lzRoundTrip : Obligations.LzRoundTrip :=
  fun _ _ _ hdc hdc' => ⟨_, lzEncode_eq_ok hdc, lzDecode_tuples hdc'⟩

/-- Settles O15: the command's function answers the tuples' bytes. -/
theorem lzEncWritesTheTuples : Obligations.LzEncWritesTheTuples := by
  intro s hm hw hr hcap hclean
  have hout : commandFunction .lzEnc s.sourceBytes s.dstCap.toNat =
      .ok { bytes := (lzTuples s.sourceBytes).flatMap Tuple.bytes, tail := false } :=
    congrArg (Except.map _) (lzEncode_eq_ok hcap)
  rw [← length_flatMap_bytes] at hcap hclean
  exact ⟨_, exec_data (by decide) s, runData_succeeds hm hw hr hout hcap hclean⟩

/-- Settles O16: a stream of LZ_ENC decodes, so in both cases the command's function answers `out`. -/
theorem lzDecWritesTheDecodedBytes : Obligations.LzDecWritesTheDecodedBytes := by
  intro s out hm hw hr hsrc hclean
  have hdec : commandFunction .lzDec s.sourceBytes s.dstCap.toNat = .ok out := by
    rcases hsrc with hdec | ⟨htail, hcap, dc, henc⟩
    · exact hdec
    · rw [eq_of_lzEncode_eq_ok henc]
      exact (lzDecode_tuples hcap).trans (by rw [← htail])
  exact ⟨_, exec_data (by decide) s,
    runData_succeeds hm hw hr hdec (length_le_of_commandFunction_eq_ok hdec) hclean⟩

end Sys2Proof.Machine

/-! PROOFS. The errors of a data command in the order of its checks (40_control.md R124, R126, 60_exceptions.md R274 to R278),
and what changes CIP (R281, R282). -/

namespace Sys2Proof.Machine

/-! ### RANGE and OVERLAP -/

theorem regionCheck_eq_range {s : State}
    (h : s.srcAddr.toNat + s.srcLen.toNat > 2 ^ 32 ∨ s.dstAddr.toNat + s.dstCap.toNat > 2 ^ 32) :
    regionCheck s.operands = .error .range :=
  if_pos h

/-- Windows in range that share the byte at `a` overlap (40_control.md R124). -/
theorem regionCheck_eq_overlap {s : State} {a : Addr} (hsrc : s.srcAddr.toNat + s.srcLen.toNat ≤ 2 ^ 32)
    (hdst : s.dstAddr.toNat + s.dstCap.toNat ≤ 2 ^ 32) (hs : s.inSource a = true) (hd : s.inDestination a = true) :
    regionCheck s.operands = .error .overlap := by
  rw [inSource_iff] at hs
  rw [inDestination_iff] at hd
  have hrange : ¬(s.operands.sa + s.operands.sl > Config.addrSpace ∨ s.operands.da + s.operands.dc > Config.addrSpace) := by
    simp only [State.operands, Config.addrSpace]
    omega
  rw [regionCheck, if_neg hrange, if_pos]
  simp only [State.operands]
  omega

/-- A command that fails the region checks completes with their error (40_control.md R126). -/
theorem runData_of_regionCheck_eq_error {s : State} {e : ErrCode} (h : regionCheck s.operands = .error e)
    (f : List Byte → Nat → Except ErrCode Output) : runData f s = completeErr s e := by
  have hperform : performData f s = .error e := by rw [performData, h]; rfl
  rw [runData, hperform, complete]

/-- Settles O8: the region check answers RANGE, which is raised before any memory access. -/
theorem windowPastTheTopFailsWithRange : Obligations.WindowPastTheTopFailsWithRange := by
  intro i s hi h
  rw [exec_data hi, runData_of_regionCheck_eq_error (regionCheck_eq_range h)]
  rfl

/-- Settles O9: the region check answers OVERLAP, which is raised before any memory access. -/
theorem windowsSharingAByteFailWithOverlap : Obligations.WindowsSharingAByteFailWithOverlap := by
  intro i s a hi hsrc hdst hs hd
  rw [exec_data hi, runData_of_regionCheck_eq_error (regionCheck_eq_overlap hsrc hdst hs hd)]
  rfl

/-! ### Bus errors -/

/-- With legal windows, a bus error on a source byte comes before the command's function (60_exceptions.md R278). -/
theorem runData_of_source_error {s : State} {a : Addr} (hw : WindowsLegal s) (ha : s.inSource a = true)
    (herr : s.platform.errs .read a = true) (f : List Byte → Nat → Except ErrCode Output) :
    runData f s = completeErr s .busRead := by
  obtain ⟨hlow, hhigh⟩ := (inSource_iff s a).mp ha
  have hread : readSource s.platform s.mem s.srcAddr s.operands.sl = .error .busRead :=
    readSource_eq_error hw.1 hlow hhigh herr
  have hperform : performData f s = .error .busRead := by
    rw [performData, (regionCheck_eq_ok_iff s).mpr hw, hread]
    rfl
  rw [runData, hperform, complete]

/-- Settles O10: the read of the source answers BUS_READ, and `completeErr_failedWith` says what that leaves. -/
theorem sourceBusErrorFailsWithBusRead : Obligations.SourceBusErrorFailsWithBusRead := by
  intro i s a hi hw ha herr
  refine ⟨completeErr s .busRead, ?_, completeErr_failedWith s .busRead⟩
  rw [exec_data hi, runData_of_source_error hw ha herr]

/-- With legal windows, clean reads and a function that answers, an error of the writes is the command's (40_control.md
R126). -/
theorem runData_of_writeOutput_eq_error {f : List Byte → Nat → Except ErrCode Output} {s : State} {out : Output}
    {e : ErrCode} (hw : WindowsLegal s) (hr : CleanReads s) (hf : f s.sourceBytes s.dstCap.toNat = .ok out)
    (h : writeOutput s.platform s.mem s.dstAddr out.bytes = .error e) : runData f s = completeErr s e := by
  have hperform : performData f s = .error e := by
    rw [performData_of_reads hw hr, hf]
    dsimp only
    rw [h]
  rw [runData, hperform, complete]

/-- Settles O12: the output fits DST_CAP, so it lies below 2^32, and its write answers BUS_WRITE. -/
theorem outputBusErrorFailsWithBusWrite : Obligations.OutputBusErrorFailsWithBusWrite := by
  intro i s out a hi hw hr hf hlow hhigh herr
  have hin : s.dstAddr.toNat + out.bytes.length ≤ Config.addrSpace :=
    (Nat.add_le_add_left (length_le_of_commandFunction_eq_ok hf) _).trans hw.2.1
  refine ⟨completeErr s .busWrite, ?_, completeErr_failedWith s .busWrite⟩
  rw [exec_data hi, runData_of_writeOutput_eq_error hw hr hf (writeOutput_eq_error hin hlow hhigh herr)]

/-! ### Outputs that do not fit -/

theorem hufCodesDump_eq_error (src : List Byte) {dc : Nat} (h : dc < Config.codesDumpLen) :
    hufCodesDump src dc = .error .dstOverflow :=
  if_pos h

theorem lzEncode_eq_error {src : List Byte} {dc : Nat} (h : dc < 3 * (lzTuples src).length) :
    lzEncode src dc = .error .dstOverflow :=
  if_pos (h.trans_eq (length_flatMap_bytes _).symm)

theorem hufEncode_eq_error {src : List Byte} {dc : Nat} (h : dc < (container src).length) :
    hufEncode src dc = .error .dstOverflow := by
  by_cases hne : src = []
  · rw [container, if_pos hne] at h
    exact absurd h (Nat.not_lt_zero dc)
  · rw [container, if_neg hne, List.length_append, length_header, length_pack] at h
    rw [hufEncode, if_neg hne]
    exact if_pos h

/-- Settles O18: each encoder's function answers DST_OVERFLOW, which is then the command's error. -/
theorem encodersOverflowWhenTheOutputIsTooLong : Obligations.EncodersOverflowWhenTheOutputIsTooLong := by
  intro s hw hr
  refine ⟨fun hcap => ?_, fun hcap => ?_, fun dc c henc hcap => ?_⟩
  · exact functionErrorIsTheCommandsError .hufCodes s _ (by decide) hw hr (hufCodesDump_eq_error _ hcap)
  · exact functionErrorIsTheCommandsError .lzEnc s _ (by decide) hw hr (congrArg (Except.map _) (lzEncode_eq_error hcap))
  · rw [eq_container_of_hufEncode_eq_ok henc] at hcap
    exact functionErrorIsTheCommandsError .hufEnc s _ (by decide) hw hr (congrArg (Except.map _) (hufEncode_eq_error hcap))

/-! ### The pending bit -/

/-- A CMD write leaves CIP alone, accepted or lost (40_control.md R121, R122). -/
@[simp] theorem writeCmd_cip (w : Word) (s : State) : (writeCmd w s).cip = s.cip := by
  unfold writeCmd
  split <;> rfl

/-- A move of the host leaves CIP alone, or clears it with a 32-bit write to INT_STAT whose bit 0 is 1 (10_state.md R31). -/
theorem HostEffect.cip_cases {op : HostOp} {s t : State} (h : HostEffect op s t) :
    t.cip = s.cip ∨ t.cip = false ∧
      ∃ w : Word, w.getLsbD 0 = true ∧ op = .busWrite (regAddress s.platform .intStat) 4 w := by
  cases h with
  | cmd w hop ht => exact .inl (ht ▸ writeCmd_cip w s)
  | intStat w hop ht =>
    have hcip : t.cip = (s.cip && !w.getLsbD 0) := by rw [ht, writeReg_intStat]
    cases hbit : w.getLsbD 0 with
    | false => exact .inl (by rw [hcip, hbit, Bool.not_false, Bool.and_true])
    | true => exact .inr ⟨by rw [hcip, hbit, Bool.not_true, Bool.and_false], w, hbit, hop⟩
  | flagless hf => exact .inl hf.cip

theorem resetCore_cip (s : State) : (resetCore s).cip = false := by
  obtain ⟨u, hu, -⟩ := resetCore_eq s
  rw [hu, resetRegisters_cip]

/-- Settles O36: of the effects of a step, a completion alone sets CIP; an INT_STAT write and a reset alone clear it. -/
theorem pendingBitChangesOnlyByCompletionAcknowledgeOrReset :
    Obligations.PendingBitChangesOnlyByCompletionAcknowledgeOrReset := by
  intro s t h
  cases step_effect h with
  | rest ht =>
    subst ht
    exact ⟨fun h0 h1 => by simp [h0] at h1, fun h1 h0 => by simp [h1] at h0⟩
  | completion hturn hb ht =>
    obtain ⟨hidle, hdone, hcip⟩ := ht.done
    exact ⟨fun _ _ => ⟨hb, hturn, hidle, hdone⟩, fun _ h0 => by simp [hcip] at h0⟩
  | host hturn op hop ht =>
    rcases ht.cip_cases with hcip | ⟨hcip, w, hbit, hw⟩
    · exact ⟨fun h0 h1 => by simp [hcip, h0] at h1, fun h1 h0 => by simp [hcip, h1] at h0⟩
    · exact ⟨fun _ h1 => by simp [hcip] at h1, fun _ _ => .inr ⟨hturn, w, hbit, hw ▸ hop⟩⟩
  | reset hturn ht =>
    exact ⟨fun _ h1 => by simp [ht, resetCore_cip] at h1, fun _ _ => .inl hturn⟩

end Sys2Proof.Machine

/-! PROOFS. The hazard of 70_reset_and_hazards.md R305: what a host access of the data memory does while a data command runs, and
that a host write to a window of the command is all that stops the machine. -/

namespace Sys2Proof.Machine

/-! ### Host accesses of the data memory -/

theorem runsDataCommand_eq_true {s : State} {i : Instr} (hb : s.eng = .busy) (hd : decode s.cmd = .ok i) (hi : i ≠ .nop) :
    runsDataCommand s = true := by
  simp [runsDataCommand, hb, hd, Instr.isData, hi]

theorem hostMemWrite_window {s : State} {a : Addr} (hr : runsDataCommand s = true)
    (ha : s.inSource a = true ∨ s.inDestination a = true) (v : Byte) : ∃ f, hostMemWrite a v s = .fault f := by
  rcases hostMemWrite_cases a v s with ⟨-, -, hf⟩ | ⟨hno, -⟩
  · exact hf
  · exact absurd ⟨hr, ha⟩ hno

theorem hostMemWrite_outside {s : State} {a : Addr} (hs : s.inSource a = false) (hd : s.inDestination a = false) (v : Byte) :
    hostMemWrite a v s = .next { s with mem := s.mem.write a v } := by
  simp [hostMemWrite, hs, hd]

theorem hostMemRead_destination {s : State} {a : Addr} (hr : runsDataCommand s = true) (ha : s.inDestination a = true)
    (n : VarName) :
    hostMemRead a n s = { s.keep n ((Config.freeByte s.draws).setWidth 32) with draws := s.draws + 1 } := by
  simp [hostMemRead, hr, ha]

theorem hostMemRead_outside {s : State} {a : Addr} (ha : s.inDestination a = false) (n : VarName) :
    hostMemRead a n s = s.keep n ((s.mem.read a).setWidth 32) := by
  simp [hostMemRead, ha]

/-- Settles O30: each row of 70_reset_and_hazards.md R305 is one of the four lemmas above. -/
theorem windowAccessesWhileBusy : Obligations.WindowAccessesWhileBusy := by
  intro s i a v n hm hb hd hi
  have hr := runsDataCommand_eq_true hb hd hi
  refine ⟨fun ha => hostMemWrite_window hr (.inl ha) v, fun ha => hostMemWrite_window hr (.inr ha) v, fun ha => ?_,
    fun ha => ?_, fun hs hd => ?_⟩
  · exact ⟨_, congrArg Host.Outcome.next (hostMemRead_destination hr ha n), rfl, getVar_keep_same s n _, rfl⟩
  · exact ⟨_, congrArg Host.Outcome.next (hostMemRead_outside ha n), rfl, getVar_keep_same s n _⟩
  · exact ⟨_, hostMemWrite_outside hs hd v, rfl, Memory.read_write_same hm a v,
      fun b hba => Memory.read_write_other v hba.symm⟩

/-! ### What stops the machine -/

/-- The move is a write to a byte of a window of the running data command (70_reset_and_hazards.md R305). -/
def WritesRunningWindow (op : HostOp) (s : State) : Prop :=
  runsDataCommand s = true ∧ ∃ a v, op = .memWrite a v ∧ (s.inSource a = true ∨ s.inDestination a = true)

theorem hostOp_stops_or_goes_on (op : HostOp) (s : State) :
    (WritesRunningWindow op s ∧ ∃ f, hostOp op s = .fault f) ∨
    (¬WritesRunningWindow op s ∧ ∃ t, hostOp op s = .next t) := by
  cases op with
  | memWrite a v =>
    rcases hostMemWrite_cases a v s with ⟨hr, ha, hf⟩ | ⟨hno, ht⟩
    · exact .inl ⟨⟨hr, a, v, rfl, ha⟩, hf⟩
    · refine .inr ⟨?_, _, ht⟩
      rintro ⟨hr, _, _, ⟨⟩, ha⟩
      exact hno ⟨hr, ha⟩
  | busWrite | busRead | memRead | branch => exact .inr ⟨fun ⟨_, _, _, h, _⟩ => (nomatch h), _, rfl⟩

theorem hostStep_stops_or_goes_on (s : State) :
    ((∃ op, s.host.prog[s.host.pc]? = some op ∧ WritesRunningWindow op s) ∧ ∃ f, hostStep s = .fault f) ∨
    ((¬∃ op, s.host.prog[s.host.pc]? = some op ∧ WritesRunningWindow op s) ∧ ∃ t, hostStep s = .next t) := by
  unfold hostStep
  cases hop : s.host.prog[s.host.pc]? with
  | none => exact .inr ⟨by simp, s, rfl⟩
  | some op =>
    rcases hostOp_stops_or_goes_on op (s.goTo (s.host.pc + 1)) with ⟨hw, hf⟩ | ⟨hno, ht⟩
    · exact .inl ⟨⟨op, rfl, hw⟩, hf⟩
    · refine .inr ⟨?_, ht⟩
      rintro ⟨_, ⟨⟩, hw⟩
      exact hno hw

theorem hazardNext_iff (s : State) :
    HazardNext s ↔ nextTurn s = .host ∧ ∃ op, s.host.prog[s.host.pc]? = some op ∧ WritesRunningWindow op s := by
  constructor
  · rintro ⟨hturn, hr, a, v, hop, ha⟩
    exact ⟨hturn, _, hop, hr, a, v, rfl, ha⟩
  · rintro ⟨hturn, _, hop, hr, a, v, rfl, ha⟩
    exact ⟨hturn, hr, a, v, hop, ha⟩

/-- Whatever word is in CMD, the engine performs it. -/
theorem exists_performCommand_eq_next (s : State) : ∃ t, performCommand s = .next t := by
  rcases performCommand_cases s with hp | ⟨i, -, hp⟩
  · exact ⟨_, hp⟩
  · rcases exec_cases i s with ⟨code, he⟩ | ⟨out, he, -⟩ <;> exact ⟨_, hp.trans he⟩

theorem exists_engineStep_eq_next (s : State) : ∃ t, engineStep s = .next t := by
  unfold engineStep
  cases s.eng with
  | idle => exact ⟨s, rfl⟩
  | busy => exact exists_performCommand_eq_next s

theorem step_eq_hostStep {s : State} (h : nextTurn s = .host) : step s = hostStep (popTurn s) := by
  rw [step, h, turnStep]

/-- The machine stops with a fault on the hazard, and without it goes on. -/
theorem step_stops_or_goes_on (s : State) :
    (HazardNext s ∧ ∃ f, step s = .fault f) ∨ (¬HazardNext s ∧ ∃ t, step s = .next t) := by
  have hno (h : nextTurn s ≠ .host) : ¬HazardNext s := fun hz => h hz.1
  cases hturn : nextTurn s with
  | engine => exact .inr ⟨hno (by simp [hturn]), by rw [step, hturn]; exact exists_engineStep_eq_next _⟩
  | reset => exact .inr ⟨hno (by simp [hturn]), _, by rw [step, hturn, turnStep]⟩
  | host =>
    rw [step_eq_hostStep hturn, hazardNext_iff]
    rcases hostStep_stops_or_goes_on (popTurn s) with ⟨hw, hf⟩ | ⟨hw, ht⟩
    · exact .inl ⟨⟨hturn, hw⟩, hf⟩
    · exact .inr ⟨fun hz => hw hz.2, ht⟩

/-- Settles O31: `step_stops_or_goes_on` has two cases, and a refusal is in neither. -/
theorem onlyTheWindowHazardStopsTheMachine : Obligations.OnlyTheWindowHazardStopsTheMachine := by
  intro s
  rcases step_stops_or_goes_on s with ⟨hz, f, hs⟩ | ⟨hno, t, hs⟩
  · exact ⟨⟨fun _ => hz, fun _ => ⟨f, hs⟩⟩, by simp [hs]⟩
  · exact ⟨⟨fun ⟨f, hf⟩ => by simp [hs] at hf, fun hz => absurd hz hno⟩, by simp [hs]⟩

end Sys2Proof.Machine

/-! PROOFS. A running command completes under every finite schedule (70_reset_and_hazards.md R312, 40_control.md R120): each turn
of the host shortens the list, and the first turn of the engine completes the command. -/

namespace Sys2Proof.Machine

/-! ### One step of a busy machine -/

theorem hostOp_turns {op : HostOp} {s t : State} (h : hostOp op s = .next t) : t.turns = s.turns := by
  rcases hostOp_cases op s with ⟨f, hop⟩ | ⟨a, bytes, w, -, hop⟩ | ⟨a, v, -, hop⟩ | ⟨n, w, k, hop⟩ | ⟨pc, hop⟩ <;>
    rw [hop] at h <;> cases h
  · exact hostBusWrite_turns a bytes w s
  all_goals rfl

theorem hostStep_turns {s t : State} (h : hostStep s = .next t) : t.turns = s.turns := by
  unfold hostStep at h
  split at h
  · exact (hostOp_turns h).trans (State.goTo_turns s _)
  · cases h
    rfl

theorem hostStep_eng_of_busy {s t : State} (h : hostStep s = .next t) (hb : s.eng = .busy) : t.eng = .busy := by
  rcases hostStep_cases h with rfl | ⟨op, -, ht⟩
  · exact hb
  · exact ht.eng_of_busy hb

theorem nextTurn_ne_reset {s : State} (h : Turn.reset ∉ s.turns) : nextTurn s ≠ .reset := by
  cases hts : s.turns with
  | nil => cases hb : s.eng <;> simp [nextTurn, defaultTurn, hts, hb]
  | cons u us =>
    rw [nextTurn_cons hts]
    rintro rfl
    exact h (by simp [hts])

/-- Without a reset, a step of a busy machine completes the command, or takes a listed turn and leaves the command running. -/
theorem step_of_busy {s t : State} (hb : s.eng = .busy) (hr : nextTurn s ≠ .reset) (h : step s = .next t) :
    (t.eng = .idle ∧ t.status.done = true) ∨ (t.eng = .busy ∧ ∃ u, s.turns = u :: t.turns) := by
  cases hturn : nextTurn s with
  | reset => exact absurd hturn hr
  | engine =>
    obtain ⟨hidle, hdone, -⟩ := (performCommand_completes (step_engine hb hturn ▸ h)).done
    exact .inl ⟨hidle, hdone⟩
  | host =>
    rw [step_eq_hostStep hturn] at h
    refine .inr ⟨hostStep_eng_of_busy h hb, ?_⟩
    cases hts : s.turns with
    | nil => simp [nextTurn_nil_busy hts hb] at hturn
    | cons u us => exact ⟨u, by rw [hostStep_turns h, popTurn_turns, hts, List.tail_cons]⟩

/-! ### Runs -/

theorem run_succ_of_fault {M : Host.Core} {s : M.State} {f : M.Fault} (h : M.step s = .fault f) (k : Nat) :
    M.run (k + 1) s = .fault f := by
  rw [Host.Core.run, h]

theorem run_succ_of_next {M : Host.Core} {s t : M.State} (h : M.step s = .next t) (k : Nat) :
    M.run (k + 1) s = M.run k t := by
  rw [Host.Core.run, h]

/-- After `k` steps the machine has stopped at a fault, or its command is complete. -/
def StopsOrCompletesIn (k : Nat) (s : State) : Prop :=
  (∃ f : Fault, Host.Core.run Sys2Proof.core k s = .fault f) ∨
    ∃ t : State, Host.Core.run Sys2Proof.core k s = .next t ∧ t.eng = .idle ∧ t.status.done = true

theorem StopsOrCompletesIn.of_step {k : Nat} {s t : State} (h : step s = .next t) (ht : StopsOrCompletesIn k t) :
    StopsOrCompletesIn (k + 1) s := by
  rwa [StopsOrCompletesIn, run_succ_of_next (M := Sys2Proof.core) h]

/-- Each step that does not end the command takes a listed turn, so the list bounds the number of steps. -/
theorem exists_stopsOrCompletesIn (s : State) (hb : s.eng = .busy) (hr : Turn.reset ∉ s.turns) :
    ∃ k, k ≤ s.turns.length + 1 ∧ StopsOrCompletesIn k s := by
  rcases step_stops_or_goes_on s with ⟨-, f, hs⟩ | ⟨-, t, hs⟩
  · exact ⟨1, by omega, .inl ⟨f, run_succ_of_fault (M := Sys2Proof.core) hs 0⟩⟩
  · rcases step_of_busy hb (nextTurn_ne_reset hr) hs with hdone | ⟨hbt, u, hts⟩
    · exact ⟨1, by omega, .of_step hs (.inr ⟨t, rfl, hdone⟩)⟩
    · rw [hts, List.mem_cons, not_or] at hr
      obtain ⟨k, hk, hkt⟩ := exists_stopsOrCompletesIn t hbt hr.2
      exact ⟨k + 1, by simpa [hts] using hk, hkt.of_step hs⟩
termination_by s.turns.length
decreasing_by simp [hts]

/-- Settles O38: `StopsOrCompletesIn` is its conclusion. -/
theorem runningCommandCompletesUnderEverySchedule : Obligations.RunningCommandCompletesUnderEverySchedule :=
  exists_stopsOrCompletesIn

end Sys2Proof.Machine
